-- ==== Sys2Proof/Word.lean ====
section
/-! DEFINITION. The word and byte types of the engine: a word is 32 bits, unsigned, bit 0 its least significant
bit (R9); a byte is 8 bits and a message is a finite sequence of bytes (R10). -/

namespace Sys2Proof

/-- A 32-bit unsigned word (R6, R9). `+` on it is addition mod 2^32 (R11). -/
abbrev Word := BitVec 32

/-- A byte (R10). -/
abbrev Byte := BitVec 8

end Sys2Proof
end

