-- ==== Sys2Proof/Config.lean ====
section
/-! DEFINITION. What is fixed for the engine, and the two parameters the spec leaves to the model (R6, R7, R8).
The engine has no option, mode bit or variant selector (R2), so there is nothing else to configure. The spec leaves no value free,
so there is no opaque constant here. -/

namespace Sys2Proof.Config

/-- BLOCK_BYTES (R6). -/
abbrev blockBytes : Nat := 64

/-- DATA_LANES, the bytes one UPDATE beat can carry (R6). -/
abbrev dataLanes : Nat := 4

/-- LEN_MAX, the largest message in bytes (R7): 8·L must fit in 64 bits. -/
def lenMax : Nat := 2 ^ 61 - 1

/-- The two parameters that are left to the model (R8): how many engines there are, and the time from accepting a command to
its response. Both are arguments of the system of `Machine/System.lean`; no rule depends on `latency` (R269), and no
definition of the model reads it (log entry 10). -/
structure Params where
  /-- N_ENGINES. -/
  nEngines : Nat
  /-- LATENCY. -/
  latency : Nat
  deriving DecidableEq, Repr

/-- N_ENGINES ≥ 1 (R8). -/
def Params.legal (p : Params) : Bool := decide (1 ≤ p.nEngines)

end Sys2Proof.Config
end

