-- ==== Sys2Proof/Syntax.lean ====
section
/-! DEFINITION. The commands of the engine as syntax: the beat the host writes (R70, R71), the decoded command, one constructor for
each row of spec/opcode_table.json, and the assembler statement of R83. -/

namespace Sys2Proof

/-- One command beat: a CMD word and a DATA word, transferred together (R70). -/
structure Beat where
  cmd : Word
  data : Word
  deriving DecidableEq, Repr

/-- A decoded command (R72). An UPDATE carries exactly the message bytes its NB selects, first byte first (R75); the lanes beyond NB
and the DATA word of INIT and FINALIZE are ignored, so they are no part of the command (R73, R75, R76). -/
inductive Instr where
  /-- INIT (R73, R200). -/
  | init
  /-- UPDATE with NB = 0, the empty update (R74, R203). -/
  | update0
  /-- UPDATE with NB = 1 (R74, R202). -/
  | update1 (b0 : Byte)
  /-- UPDATE with NB = 2 (R74, R202). -/
  | update2 (b0 b1 : Byte)
  /-- UPDATE with NB = 3 (R74, R202). -/
  | update3 (b0 b1 b2 : Byte)
  /-- UPDATE with NB = 4 (R74, R202). -/
  | update4 (b0 b1 b2 b3 : Byte)
  /-- FINALIZE (R76, R210). -/
  | finalize
  deriving DecidableEq, Repr

/-- The message bytes of a command: `bytes` of R202, none for INIT and FINALIZE. -/
def Instr.bytes : Instr → List Byte
  | .init => []
  | .update0 => []
  | .update1 b0 => [b0]
  | .update2 b0 b1 => [b0, b1]
  | .update3 b0 b1 b2 => [b0, b1, b2]
  | .update4 b0 b1 b2 b3 => [b0, b1, b2, b3]
  | .finalize => []

/-- Is the command an UPDATE of any width? -/
def Instr.isUpdate : Instr → Bool
  | .init => false
  | .update0 => true
  | .update1 _ => true
  | .update2 _ _ => true
  | .update3 _ _ _ => true
  | .update4 _ _ _ _ => true
  | .finalize => false

/-- One statement of the assembler (R83). -/
inductive Asm where
  /-- `INIT`. -/
  | init
  /-- `FINALIZE`. -/
  | finalize
  /-- `UPDATE <nb>, <data32>`. -/
  | updateWord (nb : Nat) (data : Word)
  /-- `UPDATE "<s>"`. -/
  | updateString (s : List Byte)
  deriving DecidableEq, Repr

end Sys2Proof
end

