-- ==== Sys2Proof/WellFormed.lean ====
section
/-! DEFINITION. What a well-formed term is: a command carries at most four bytes (R72), and an assembler statement is one that an
assembler does not refuse (R83). -/

namespace Sys2Proof

/-- R72: 0 ≤ len(bytes) ≤ 4. Every term of `Instr` meets it, because each constructor holds exactly its row's bytes. -/
def Instr.wellFormed (i : Instr) : Bool := decide (i.bytes.length ≤ Config.dataLanes)

/-- R83: an assembler must refuse nb > 4 or a string longer than 4 bytes. -/
def Asm.wellFormed : Asm → Bool
  | .init => true
  | .finalize => true
  | .updateWord nb _ => decide (nb ≤ Config.dataLanes)
  | .updateString s => decide (s.length ≤ Config.dataLanes)

end Sys2Proof
end

