-- ==== Sys2Proof/Decode.lean ====
section
/-! DEFINITION. Decoding a beat, total on every beat and rejecting by name (R71 to R78); the encoder, written from the same
encoding rules (R73, R74, R76, R83); and the table-word entry point. -/

namespace Sys2Proof

/-- Why a beat decodes to `Illegal` (R72, R77). The engine reports IllegalCommand for each of them alike (R234). -/
inductive Illegal where
  /-- CMD[31:7] ≠ 0. -/
  | reservedBits
  /-- OP is 0x0 or 0x4 to 0xF. -/
  | reservedOpcode
  /-- INIT or FINALIZE with NB ≠ 0. -/
  | byteCountNotZero
  /-- UPDATE with NB 5, 6 or 7. -/
  | byteCountTooLarge
  deriving DecidableEq, Repr

/-- OP = CMD[3:0] (R71). -/
def Beat.op (b : Beat) : BitVec 4 := b.cmd.extractLsb' 0 4

/-- NB = CMD[6:4] (R71). -/
def Beat.nb (b : Beat) : BitVec 3 := b.cmd.extractLsb' 4 3

/-- RSVD = CMD[31:7] (R71). -/
def Beat.rsvd (b : Beat) : BitVec 25 := b.cmd.extractLsb' 7 25

/-- Byte lane 0 of DATA, its most significant byte (R71, R75). -/
def Beat.lane0 (b : Beat) : Byte := b.data.extractLsb' 24 8

/-- Byte lane 1 of DATA (R71, R75). -/
def Beat.lane1 (b : Beat) : Byte := b.data.extractLsb' 16 8

/-- Byte lane 2 of DATA (R71, R75). -/
def Beat.lane2 (b : Beat) : Byte := b.data.extractLsb' 8 8

/-- Byte lane 3 of DATA, its least significant byte (R71, R75). -/
def Beat.lane3 (b : Beat) : Byte := b.data.extractLsb' 0 8

/-- lanes(DATA): the four byte lanes, most significant first (R72). -/
def Beat.lanes (b : Beat) : List Byte := [b.lane0, b.lane1, b.lane2, b.lane3]

/-- lanes(DATA)[0..NB): the operand of an UPDATE beat (R54, R75). -/
def Beat.operand (b : Beat) : List Byte := b.lanes.take b.nb.toNat

/-- The UPDATE that NB and DATA stand for: the first NB lanes (R72, R75). -/
def decodeUpdate (b : Beat) : Except Illegal Instr :=
  if b.nb = 0 then .ok .update0
  else if b.nb = 1 then .ok (.update1 b.lane0)
  else if b.nb = 2 then .ok (.update2 b.lane0 b.lane1)
  else if b.nb = 3 then .ok (.update3 b.lane0 b.lane1 b.lane2)
  else if b.nb = 4 then .ok (.update4 b.lane0 b.lane1 b.lane2 b.lane3)
  else .error .byteCountTooLarge

/-- R72, line by line. -/
def decode (b : Beat) : Except Illegal Instr :=
  if b.rsvd ≠ 0 then .error .reservedBits
  else if b.op = 1 then (if b.nb = 0 then .ok .init else .error .byteCountNotZero)
  else if b.op = 2 then decodeUpdate b
  else if b.op = 3 then (if b.nb = 0 then .ok .finalize else .error .byteCountNotZero)
  else .error .reservedOpcode

/-- BE32(b0, b1, b2, b3) = b0·2^24 + b1·2^16 + b2·2^8 + b3 (R10). As a DATA word its lanes are the four bytes in order (R71). -/
def be32 (b0 b1 b2 b3 : Byte) : Word :=
  BitVec.ofNat 32 (b0.toNat * 2 ^ 24 + b1.toNat * 2 ^ 16 + b2.toNat * 2 ^ 8 + b3.toNat)

/-- The beat of a command (R73, R74, R76). Ignored lanes are zero, as the assembler writes them (R83). -/
def encode : Instr → Beat
  | .init => ⟨0x00000001, 0⟩
  | .update0 => ⟨0x00000002, 0⟩
  | .update1 b0 => ⟨0x00000012, be32 b0 0 0 0⟩
  | .update2 b0 b1 => ⟨0x00000022, be32 b0 b1 0 0⟩
  | .update3 b0 b1 b2 => ⟨0x00000032, be32 b0 b1 b2 0⟩
  | .update4 b0 b1 b2 b3 => ⟨0x00000042, be32 b0 b1 b2 b3⟩
  | .finalize => ⟨0x00000003, 0⟩

/-- The beat whose bits, numbered as spec/opcode_table.json numbers them, are the low `nbits` bits of `w`: CMD is the first word and
DATA the second (R70; DEDUCED, log entry 11), and the bits above `nbits` are zero. -/
def Beat.ofTableWord (nbits w : Nat) : Beat :=
  ⟨BitVec.ofNat 32 (w % 2 ^ nbits), BitVec.ofNat 32 (w % 2 ^ nbits / 2 ^ 32)⟩

/-- The command the decoder reads from such a beat, none where it refuses it. -/
def decodeTableWord (nbits w : Nat) : Option Instr :=
  match decode (Beat.ofTableWord nbits w) with
  | .ok i => some i
  | .error _ => none

end Sys2Proof
end

