-- ==== Sys2Proof/Machine/HashState.lean ====
section
/-! DEFINITION. The eight-word register file H[0..7] (R20, R21) and the eight working variables a..h (R29) as data. -/

namespace Sys2Proof.Machine

/-- HashState H[0..7], eight 32-bit words (R20). No element is hardwired and none has another name (R21). -/
structure HashState where
  h0 : Word
  h1 : Word
  h2 : Word
  h3 : Word
  h4 : Word
  h5 : Word
  h6 : Word
  h7 : Word
  deriving DecidableEq, Repr

/-- H[i] of R12, and DIGESTi of R82. -/
def HashState.get (h : HashState) (i : Fin 8) : Word :=
  match i with
  | 0 => h.h0
  | 1 => h.h1
  | 2 => h.h2
  | 3 => h.h3
  | 4 => h.h4
  | 5 => h.h5
  | 6 => h.h6
  | 7 => h.h7

/-- H[0], …, H[7] in order. -/
def HashState.toWords (h : HashState) : List Word := [h.h0, h.h1, h.h2, h.h3, h.h4, h.h5, h.h6, h.h7]

/-- The working variables a..h (R29). They exist only while one block is compressed, so no field of the machine's state holds
them. -/
structure WorkVars where
  a : Word
  b : Word
  c : Word
  d : Word
  e : Word
  f : Word
  g : Word
  h : Word
  deriving DecidableEq, Repr

end Sys2Proof.Machine
end

