-- ==== Sys2Proof/Machine/State.lean ====
section
/-! DEFINITION. The state of one engine as plain data (R20 to R34), the reasons a step can stop, and the state after reset
(R260). The round-constant and IV tables are read-only constants (Machine/Rom.lean). The schedule, the working variables, the round
counter and the block index exist only inside one command and have no reset value (R28, R29, R30), so no field holds them. -/

namespace Sys2Proof.Machine

/-- The phase register (R22). -/
inductive Phase where
  /-- H set to the IV, no block consumed yet. -/
  | initialized
  /-- At least one block consumed. -/
  | processing
  /-- The last padded block consumed, the digest serialised. -/
  | finalized
  deriving DecidableEq, Repr

/-- The outcome a response reports (R81). -/
inductive Status where
  | ok
  | useAfterFinalize
  | lengthOverflow
  | illegalCommand
  deriving DecidableEq, Repr

/-- One response: the RESP word and, after a successful FINALIZE, the words DIGEST0..DIGEST7 (R80, R82). -/
structure Response where
  /-- RESP, port P2. -/
  resp : Word
  /-- DIGEST0..DIGEST7, ports P3 to P10; `none` where the response carries no digest payload. -/
  digest : Option HashState
  deriving DecidableEq, Repr

/-- The state of one engine. -/
structure State where
  /-- HashState H[0..7] (R20). -/
  hash : HashState
  /-- The phase register (R22). -/
  phase : Phase
  /-- The partial-block buffer, the bytes in the order they were accepted (R23). -/
  buf : List Byte
  /-- LEN[60:0], the message length counter L (R24). -/
  len : BitVec 61
  /-- The command channel (R32, ports P0 and P1): the beats the host has written and the engine has not accepted, oldest first. A beat
  written early is held, not lost and not reordered (R264). DESIGN CHOICE (log entry 1): the channel has no bound. -/
  pending : List Beat
  /-- The response channel (R32, ports P2 to P10): the responses produced and not yet delivered to the host, oldest first (R56).
  DESIGN CHOICE (log entry 2): the channel has no bound, and no response is dropped. -/
  responses : List Response
  deriving DecidableEq, Repr

/-- Why a step stops with a fault. -/
inductive Fault where
  /-- Raised by FINALIZE when the padded tail it hands to the segmenter is no whole number of 64-byte blocks: the internal invariant
  breach of R152, to be treated as a fault of the model and never as a value (U2). Safe (log entry 6): no state that meets R25 reaches it. -/
  | partialBlock
  deriving DecidableEq, Repr

/-- Why a step refuses. -/
inductive Refusal where
  /-- Raised by an arm of `exec` whose command has no meaning yet. Safe. No arm raises it: every command is modelled. -/
  | notModelled (mnemonic : String)
  deriving DecidableEq, Repr

/-- The state after reset (R260): H is the IV, the phase Initialized, the buffer empty, L zero, both channels empty. DEDUCED
(log entry 4): beats and responses that still wait are gone. -/
def State.reset : State where
  hash := iv
  phase := .initialized
  buf := []
  len := 0
  pending := []
  responses := []

end Sys2Proof.Machine
end

