-- ==== Sys2Proof/Machine/Operands.lean ====
section
/-! DEFINITION. The byte-order primitives behind the operands: the byte sequences of a word and of the length field (R10, R24, R52).
Everything is big-endian. The one operand form, the byte lanes of an UPDATE beat (R54, R75), is read in Decode.lean. -/

namespace Sys2Proof.Machine

/-- BE32bytes(w): the four bytes of a word, most significant first (R10). -/
def be32Bytes (w : Word) : List Byte :=
  [w.extractLsb' 24 8, w.extractLsb' 16 8, w.extractLsb' 8 8, w.extractLsb' 0 8]

/-- BE64bytes(v): the eight bytes of a 64-bit value, most significant first (R10). -/
def be64Bytes (v : BitVec 64) : List Byte :=
  [v.extractLsb' 56 8, v.extractLsb' 48 8, v.extractLsb' 40 8, v.extractLsb' 32 8] ++
  [v.extractLsb' 24 8, v.extractLsb' 16 8, v.extractLsb' 8 8, v.extractLsb' 0 8]

/-- zeros(n): n bytes of 0x00 (R10). -/
def zeros (n : Nat) : List Byte := List.replicate n 0

/-- s[i..j): the bytes from index i up to but not including index j (R10). -/
def slice (s : List Byte) (i j : Nat) : List Byte := (s.drop i).take (j - i)

/-- The 64-bit bit-length field of the counter: LEN[60:0] above three zero bits (R24, R133). -/
def bitLength (len : BitVec 61) : BitVec 64 := len ++ (0 : BitVec 3)

end Sys2Proof.Machine
end

