-- ==== Sys2Proof/Machine/Flags.lean ====
section
/-! DEFINITION. The engine has no condition codes and no arithmetic flags (R31). The only status a command yields is its
response: the codes of STATUS (R81) and PHASE (R22), the RESP word (R80), its fields, and its delivery by port (R32, R56). -/

namespace Sys2Proof.Machine

/-- The STATUS code (R81). -/
def Status.code : Status → BitVec 4
  | .ok => 0
  | .useAfterFinalize => 1
  | .lengthOverflow => 2
  | .illegalCommand => 3

/-- enc(phase), the two bits of RESP.PHASE (R22, R80). -/
def Phase.code : Phase → BitVec 2
  | .initialized => 0
  | .processing => 1
  | .finalized => 2

/-- The RESP word: 26 zero bits, the phase, the status (R80). -/
def respWord (status : Status) (phase : Phase) : Word := (0 : BitVec 26) ++ phase.code ++ status.code

/-- RESP[3:0] (R80). -/
def Response.statusField (r : Response) : BitVec 4 := r.resp.extractLsb' 0 4

/-- RESP[5:4] (R80). -/
def Response.phaseField (r : Response) : BitVec 2 := r.resp.extractLsb' 4 2

/-- RESP[31:6], which reads 0 (R80). -/
def Response.zeroField (r : Response) : BitVec 26 := r.resp.extractLsb' 6 26

/-- The words of a response in the order they are delivered: RESP, then DIGEST0 first (R56). -/
def Response.words (r : Response) : List Word :=
  match r.digest with
  | none => [r.resp]
  | some d => r.resp :: d.toWords

/-- What the host reads from port Pk of one response (R32): RESP at P2, DIGESTi at P(3+i) where the response carries the digest. P0
and P1 are write-only, and there is no other port. -/
def Response.readPort (r : Response) (k : Nat) : Option Word :=
  if k = 2 then some r.resp
  else if h : 3 ≤ k ∧ k < 11 then r.digest.map (fun d => d.get ⟨k - 3, by omega⟩)
  else none

end Sys2Proof.Machine
end

