-- ==== Sys2Proof/Machine/RoundFunctions.lean ====
section
/-! DEFINITION. The rotation and shift of R11 and the six stateless round functions (R100 to R106). -/

namespace Sys2Proof.Machine

/-- shr(x, n): the logical right shift (R11). -/
def shr (x : Word) (n : Nat) : Word := x >>> n

/-- rotr(x, n), for 0 < n < 32: shr(x, n) or x·2^(32−n) mod 2^32 (R11). -/
def rotr (x : Word) (n : Nat) : Word := shr x n ||| (x <<< (32 - n))

/-- σ0 (R101). -/
def smallSigma0 (x : Word) : Word := rotr x 7 ^^^ rotr x 18 ^^^ shr x 3

/-- σ1 (R102). -/
def smallSigma1 (x : Word) : Word := rotr x 17 ^^^ rotr x 19 ^^^ shr x 10

/-- Σ0 (R103). -/
def bigSigma0 (x : Word) : Word := rotr x 2 ^^^ rotr x 13 ^^^ rotr x 22

/-- Σ1 (R104). -/
def bigSigma1 (x : Word) : Word := rotr x 6 ^^^ rotr x 11 ^^^ rotr x 25

/-- Ch (R105). -/
def ch (x y z : Word) : Word := (x &&& y) ^^^ (~~~x &&& z)

/-- Maj (R106). -/
def maj (x y z : Word) : Word := (x &&& y) ^^^ (x &&& z) ^^^ (y &&& z)

end Sys2Proof.Machine
end

