-- ==== Sys2Proof/Machine/Padder.lean ====
section
/-! DEFINITION. The padder, on a whole message (R130 to R135) and in the streaming form FINALIZE computes (R136). -/

namespace Sys2Proof.Machine

/-- z = (55 − L) mod 64, the non-negative remainder (R131). -/
def padZeros (l : Nat) : Nat := ((55 - (l : Int)) % 64).toNat

/-- pad(M) (R131). -/
def pad (m : List Byte) : List Byte :=
  m ++ [0x80] ++ zeros (padZeros m.length) ++ be64Bytes (BitVec.ofNat 64 (8 * m.length))

/-- tail(buf, L) (R136), its length field the counter followed by three zero bits (R133). -/
def tail (buf : List Byte) (len : BitVec 61) : List Byte :=
  buf ++ [0x80] ++ zeros (padZeros len.toNat) ++ be64Bytes (bitLength len)

/-- n(L), the number of blocks of the padded message (R134). -/
def padBlocks (l : Nat) : Nat := (l + 8) / 64 + 1

end Sys2Proof.Machine
end

