-- ==== Sys2Proof/Machine/Segmenter.lean ====
section
/-! DEFINITION. The block segmenter: the words of a block (R150) and the blocks of a padded sequence (R151, R152). -/

namespace Sys2Proof.Machine

/-- words(blk): the big-endian words of successive four-byte groups (R150); sixteen of them for a block of 64 bytes. -/
def blockWords : List Byte → List Word
  | b0 :: b1 :: b2 :: b3 :: rest => be32 b0 b1 b2 b3 :: blockWords rest
  | _ => []

/-- The blocks P[64j..64j+64) for j = 0..n−1, in ascending j (R151). -/
def blocks (p : List Byte) : List (List Byte) :=
  (List.range (p.length / Config.blockBytes)).map fun j =>
    slice p (Config.blockBytes * j) (Config.blockBytes * j + Config.blockBytes)

/-- The segmenter with its length precondition (R152): `none` is the internal invariant breach, a length that is no multiple of 64. -/
def segmentBlocks (p : List Byte) : Option (List (List Byte)) :=
  if p.length % Config.blockBytes = 0 then some (blocks p) else none

end Sys2Proof.Machine
end

