-- ==== Sys2Proof/Machine/Scheduler.lean ====
section
/-! DEFINITION. The message-schedule expander: the normative rule (R160, R161), and the sliding window of sixteen words that hardware
may keep instead (R163). The machine uses the normative one. -/

namespace Sys2Proof.Machine

/-- W[t] for t ≥ 16 from the schedule words before it (R161). -/
def nextScheduleWord (w : List Word) (t : Nat) : Word :=
  smallSigma1 (w.getD (t - 2) 0) + w.getD (t - 7) 0 + smallSigma0 (w.getD (t - 15) 0) + w.getD (t - 16) 0

/-- `n` more schedule words, each appended to those before it (R161). -/
def extendSchedule : Nat → List Word → List Word
  | 0, w => w
  | n + 1, w => extendSchedule n (w ++ [nextScheduleWord w w.length])

/-- schedule(M[0..15]): W[0..63] (R161). No words have no schedule; the case stands apart only so that the schedule of a block that is
a variable does not unfold in a proof (DESIGN CHOICE, log entry 14: only lists of sixteen words arise). -/
def schedule : List Word → List Word
  | [] => []
  | m0 :: ms => extendSchedule 48 (m0 :: ms)

/-- One step of the window realisation (R163): for t ≥ 16 the word at t mod 16 is replaced; before that it is left alone. -/
def windowStep (w : List Word) (t : Nat) : List Word :=
  if t < 16 then w
  else w.set (t % 16)
    (smallSigma1 (w.getD ((t - 2) % 16) 0) + w.getD ((t - 7) % 16) 0 + smallSigma0 (w.getD ((t - 15) % 16) 0) +
      w.getD (t % 16) 0)

/-- The window as round t finds it, the steps of rounds 0..t done (R163). -/
def windowAt (m : List Word) : Nat → List Word
  | 0 => windowStep m 0
  | t + 1 => windowStep (windowAt m t) (t + 1)

/-- The word round t consumes from the window, w[t mod 16] (R163). -/
def windowWord (m : List Word) (t : Nat) : Word := (windowAt m t).getD (t % 16) 0

end Sys2Proof.Machine
end

