-- ==== Sys2Proof/Machine/Compressor.lean ====
section
/-! DEFINITION. The compression function: load (R176), one round (R177, R178), the 64 rounds (R180), the accumulate (R181), the
block composite (R183), and the digest as bytes (R182). -/

namespace Sys2Proof.Machine

/-- The working variables before round 0 (R176). -/
def loadVars (h : HashState) : WorkVars := ⟨h.h0, h.h1, h.h2, h.h3, h.h4, h.h5, h.h6, h.h7⟩

/-- T1 = h + Σ1(e) + Ch(e, f, g) + K[t] + W[t] (R177). -/
def temp1 (v : WorkVars) (k w : Word) : Word := v.h + bigSigma1 v.e + ch v.e v.f v.g + k + w

/-- T2 = Σ0(a) + Maj(a, b, c) (R177). -/
def temp2 (v : WorkVars) : Word := bigSigma0 v.a + maj v.a v.b v.c

/-- The simultaneous update of one round (R178). -/
def compressRound (v : WorkVars) (k w : Word) : WorkVars where
  h := v.g
  g := v.f
  f := v.e
  e := v.d + temp1 v k w
  d := v.c
  c := v.b
  b := v.a
  a := temp1 v k w + temp2 v

/-- rounds(H, W) (R180): from the loaded variables, the rounds t = 0, 1, … in ascending order, round t reading K[t] and W[t] and the
variables the round before it wrote. K has 64 words, and so has a schedule. -/
def rounds (h : HashState) (w : List Word) : WorkVars :=
  (roundConstants.zip w).foldl (fun v kw => compressRound v kw.1 kw.2) (loadVars h)

/-- The per-block accumulate, each working variable added into its word of H (R181). -/
def accumulate (h : HashState) (v : WorkVars) : HashState :=
  ⟨h.h0 + v.a, h.h1 + v.b, h.h2 + v.c, h.h3 + v.d, h.h4 + v.e, h.h5 + v.f, h.h6 + v.g, h.h7 + v.h⟩

/-- ProcessBlock(H, blk) (R183). -/
def processBlock (h : HashState) (blk : List Byte) : HashState :=
  accumulate h (rounds h (schedule (blockWords blk)))

/-- The blocks compressed one after another, each with the H the one before it wrote (R197). -/
def processBlocks (h : HashState) (blks : List (List Byte)) : HashState := blks.foldl processBlock h

/-- The digest as 32 bytes (R182). -/
def serialize (h : HashState) : List Byte := h.toWords.flatMap be32Bytes

end Sys2Proof.Machine
end

