-- ==== Sys2Proof/Machine/Ops.lean ====
section
/-! DEFINITION. The operations every command is built from: ending a command with its response (R12, R80), rejecting a beat (R12,
R232), starting a message (R200), taking one message byte (R202, R204, R205), closing a message (R210), and accepting a beat from
the command channel (R57, R264).

An error is this engine's only exception. Its entry is `raiseError`: no control transfer, no saved state, no mode change, no vector
(R237), the error code in the response and nothing else (R230, R232). There is no return from it: the next beat is accepted at once in
the same state (R238), so no operation stands beside it. -/

namespace Sys2Proof.Machine

/-- respond(status, digest): one response enters the response channel after those before it, its PHASE the phase after the
command (R12, R80). -/
def respond (status : Status) (digest : Option HashState) (s : State) : State :=
  { s with responses := s.responses ++ [⟨respWord status s.phase, digest⟩] }

/-- raise Error(code): the response carries the code and no digest; H, phase, buf and L stay as they were (R12, R230, R232, R237). -/
def raiseError (code : Status) (s : State) : State := respond code none s

/-- What INIT writes (R200). -/
def startMessage (s : State) : State :=
  { s with hash := iv, buf := [], len := 0, phase := .initialized }

/-- One byte taken into the buffer and counted, the block not yet looked at (R202). -/
def storeByte (b : Byte) (s : State) : State :=
  { s with buf := s.buf ++ [b], len := s.len + 1 }

/-- A completed block's H written, the buffer emptied, the phase Processing (R202, R205). -/
def writeBlock (h : HashState) (s : State) : State :=
  { s with hash := h, buf := [], phase := .processing }

/-- The buffered block compressed into H (R202, R204). -/
def compressBuffer (s : State) : State := writeBlock (processBlock s.hash s.buf) s

/-- One turn of UPDATE's loop: the byte is taken, and a buffer that reached 64 bytes is compressed at once (R202, R204). -/
def takeByte (s : State) (b : Byte) : State :=
  if (storeByte b s).buf.length = Config.blockBytes then compressBuffer (storeByte b s) else storeByte b s

/-- UPDATE's loop over the bytes of the beat (R202). -/
def takeBytes (bytes : List Byte) (s : State) : State := bytes.foldl takeByte s

/-- UPDATE(bytes) (R202): the phase check (R231), then the length check on the exact sum, before any byte is taken (R233), then the
bytes. -/
def appendBytes (bytes : List Byte) (s : State) : Host.Outcome State Fault Refusal :=
  if s.phase = .finalized then .next (raiseError .useAfterFinalize s)
  else if Config.lenMax < s.len.toNat + bytes.length then .next (raiseError .lengthOverflow s)
  else .next (respond .ok none (takeBytes bytes s))

/-- What FINALIZE writes once the H after the tail's blocks is known: the buffer is emptied, the phase is Finalized, L keeps its
value (R210, R212). -/
def closeMessage (h : HashState) (s : State) : State :=
  { s with hash := h, buf := [], phase := .finalized }

/-- FINALIZE (R210): the phase check (R231), the padded tail (R136) through the segmenter (R152), the digest in the response
(R82). -/
def finishMessage (s : State) : Host.Outcome State Fault Refusal :=
  if s.phase = .finalized then .next (raiseError .useAfterFinalize s)
  else
    match segmentBlocks (tail s.buf s.len) with
    | none => .fault .partialBlock
    | some blks =>
      .next (respond .ok (some (processBlocks s.hash blks)) (closeMessage (processBlocks s.hash blks) s))

/-- The oldest beat of the command channel and the state without it, none where the channel is empty (R57, R264). -/
def acceptBeat (s : State) : Option (Beat × State) :=
  match s.pending with
  | [] => none
  | b :: rest => some (b, { s with pending := rest })

/-- A beat that decodes to Illegal, for whichever reason, raises IllegalCommand in any phase (R195, R234). -/
def rejectIllegal (_why : Illegal) (s : State) : Host.Outcome State Fault Refusal :=
  .next (raiseError .illegalCommand s)

/-- The engine with an empty command channel stays as it is (R247). DEDUCED (log entry 5): this is a step that changes nothing. -/
def idle (s : State) : Host.Outcome State Fault Refusal := .next s

end Sys2Proof.Machine
end

