-- ==== Sys2Proof/Machine/Finalize.lean ====
section
/-! DEFINITION. The meaning of FINALIZE (R210 to R213). -/

namespace Sys2Proof.Machine

/-- FINALIZE (R210). It never raises LengthOverflow (R213). -/
def execFinalize (s : State) : Host.Outcome State Fault Refusal := finishMessage s

end Sys2Proof.Machine
end

