-- ==== Sys2Proof/Machine/Init.lean ====
section
/-! DEFINITION. The meaning of INIT (R200, R201). -/

namespace Sys2Proof.Machine

/-- INIT, legal in every phase and never an error (R200, R201). -/
def execInit (s : State) : Host.Outcome State Fault Refusal :=
  .next (respond .ok none (startMessage s))

end Sys2Proof.Machine
end

