-- ==== Sys2Proof/Machine/Update.lean ====
section
/-! DEFINITION. The meanings of UPDATE, one for each row of the table: NB = 0 to 4 (R202 to R205). -/

namespace Sys2Proof.Machine

/-- UPDATE with NB = 0: it appends nothing and still checks the phase (R203). -/
def execUpdate0 (s : State) : Host.Outcome State Fault Refusal := appendBytes [] s

/-- UPDATE with NB = 1 (R202). -/
def execUpdate1 (b0 : Byte) (s : State) : Host.Outcome State Fault Refusal := appendBytes [b0] s

/-- UPDATE with NB = 2 (R202). -/
def execUpdate2 (b0 b1 : Byte) (s : State) : Host.Outcome State Fault Refusal := appendBytes [b0, b1] s

/-- UPDATE with NB = 3 (R202). -/
def execUpdate3 (b0 b1 b2 : Byte) (s : State) : Host.Outcome State Fault Refusal := appendBytes [b0, b1, b2] s

/-- UPDATE with NB = 4 (R202). -/
def execUpdate4 (b0 b1 b2 b3 : Byte) (s : State) : Host.Outcome State Fault Refusal := appendBytes [b0, b1, b2, b3] s

end Sys2Proof.Machine
end

