-- ==== Sys2Proof/Machine/Dispatch.lean ====
section
/-! DEFINITION. Which meaning each command has, one arm for each constructor (R195). -/

namespace Sys2Proof.Machine

def exec (i : Instr) (s : State) : Host.Outcome State Fault Refusal :=
  match i with
  | .init => Sys2Proof.Machine.execInit s
  | .update0 => Sys2Proof.Machine.execUpdate0 s
  | .update1 b0 => Sys2Proof.Machine.execUpdate1 b0 s
  | .update2 b0 b1 => Sys2Proof.Machine.execUpdate2 b0 b1 s
  | .update3 b0 b1 b2 => Sys2Proof.Machine.execUpdate3 b0 b1 b2 s
  | .update4 b0 b1 b2 b3 => Sys2Proof.Machine.execUpdate4 b0 b1 b2 b3 s
  | .finalize => Sys2Proof.Machine.execFinalize s

end Sys2Proof.Machine
end

