-- ==== Sys2Proof/Machine/Step.lean ====
section
/-! DEFINITION. One step of the engine: it accepts the oldest beat of its command channel, runs it to its response (R53, R195), and
with an empty channel stays as it is (R247). -/

namespace Sys2Proof.Machine

/-- step (R195): decode, then the command; an illegal beat raises IllegalCommand. -/
def step (s : State) : Host.Outcome State Fault Refusal :=
  match acceptBeat s with
  | none => idle s
  | some (b, t) =>
    match decode b with
    | .ok i => exec i t
    | .error why => rejectIllegal why t

/-- The state whose next step takes the beat of the table word: the beat stands at the head of the command channel, and nothing
else changes. The engine fetches no instruction (R30, R61): its program is the beats the host writes
(log entry 3). -/
def State.withFetchWord (s : State) (nbits w : Nat) : State :=
  { s with pending := Beat.ofTableWord nbits w :: s.pending }

end Sys2Proof.Machine
end

