-- ==== Sys2Proof/Machine/Assembler.lean ====
section
/-! DEFINITION. The assembler (R83) from a line of text to a beat, and the pseudo-instruction UPDATEB (R84). What R83
leaves open of the text form is a DESIGN CHOICE (log entry 13). -/

namespace Sys2Proof.Machine

/-- The beat of `UPDATE "<s>"`: UPDATE len(s), BE32(s ++ zeros(4 − len(s))) (R83). -/
def updateBeat (s : List Byte) : Beat :=
  ⟨BitVec.ofNat 32 (2 + 16 * s.length), be32 (s.getD 0 0) (s.getD 1 0) (s.getD 2 0) (s.getD 3 0)⟩

/-- The beat an assembler statement encodes, none where the assembler must refuse (R83). -/
def assemble (a : Asm) : Option Beat :=
  if a.wellFormed then
    match a with
    | .init => some ⟨0x00000001, 0⟩
    | .finalize => some ⟨0x00000003, 0⟩
    | .updateWord nb data => some ⟨BitVec.ofNat 32 (2 + 16 * nb), data⟩
    | .updateString s => some (updateBeat s)
  else none

/-- UPDATEB m: ceil(len(m)/4) beats, beat j carrying m[4j .. min(4j+4, len(m))) (R84). -/
def updateB (m : List Byte) : List Beat :=
  (List.range ((m.length + 3) / 4)).map fun j => updateBeat (slice m (4 * j) (min (4 * j + 4) m.length))

/-- A line without its comment: `;` starts one, but not inside a string (R83). -/
def stripComment : Bool → List Char → List Char
  | _, [] => []
  | quoted, c :: cs =>
    if c = '"' then c :: stripComment (!quoted) cs
    else if c = ';' ∧ quoted = false then []
    else c :: stripComment quoted cs

/-- Is the character a blank? -/
def isBlank (c : Char) : Bool := decide (c = ' ' ∨ c = '\t')

/-- The text without the blanks around it. -/
def trimBlanks (cs : List Char) : List Char := ((cs.dropWhile isBlank).reverse.dropWhile isBlank).reverse

/-- The value of a hexadecimal digit. -/
def hexDigit (c : Char) : Option Nat :=
  if '0' ≤ c ∧ c ≤ '9' then some (c.toNat - '0'.toNat)
  else if 'a' ≤ c ∧ c ≤ 'f' then some (c.toNat - 'a'.toNat + 10)
  else if 'A' ≤ c ∧ c ≤ 'F' then some (c.toNat - 'A'.toNat + 10)
  else none

/-- The value of a string of digits, the first the most significant. -/
def digitsValue (base : Nat) : List Char → Nat → Option Nat
  | [], acc => some acc
  | c :: cs, acc =>
    match hexDigit c with
    | some d => if d < base then digitsValue base cs (acc * base + d) else none
    | none => none

/-- A 32-bit hex literal: 0x and one to eight digits (R83). -/
def hexLiteral : List Char → Option Word
  | '0' :: 'x' :: ds =>
    if 1 ≤ ds.length ∧ ds.length ≤ 8 then (digitsValue 16 ds 0).map (BitVec.ofNat 32) else none
  | _ => none

/-- A decimal number. -/
def decimal (cs : List Char) : Option Nat := if cs = [] then none else digitsValue 10 cs 0

/-- The byte a character of a string stands for. -/
def charByte (c : Char) : Option Byte := if c.toNat < 256 then some (BitVec.ofNat 8 c.toNat) else none

/-- The bytes of a string literal after its opening quote, the closing quote its last character. -/
def stringBytes : List Char → Option (List Byte)
  | [] => none
  | c :: cs =>
    if c = '"' then (if cs = [] then some [] else none)
    else
      match charByte c, stringBytes cs with
      | some b, some bs => some (b :: bs)
      | _, _ => none

/-- The operand text of an UPDATE line (R83). -/
def parseOperands (cs : List Char) : Option Asm :=
  match cs with
  | '"' :: rest => (stringBytes rest).map .updateString
  | _ =>
    match decimal (trimBlanks (cs.takeWhile (· ≠ ','))), hexLiteral (trimBlanks ((cs.dropWhile (· ≠ ',')).drop 1)) with
    | some nb, some data => some (.updateWord nb data)
    | _, _ => none

/-- One line of assembler text (R83): `some none` is a line with no command on it, `none` a line that is no statement. -/
def parseLine (line : List Char) : Option (Option Asm) :=
  match trimBlanks (stripComment false line) with
  | [] => some none
  | ['I', 'N', 'I', 'T'] => some (some .init)
  | ['F', 'I', 'N', 'A', 'L', 'I', 'Z', 'E'] => some (some .finalize)
  | 'U' :: 'P' :: 'D' :: 'A' :: 'T' :: 'E' :: c :: rest =>
    if isBlank c then (parseOperands (trimBlanks rest)).map some else none
  | _ => none

/-- The beats of a program text, one command a line (R83); `none` where the assembler refuses a line. -/
def assembleLines : List (List Char) → Option (List Beat)
  | [] => some []
  | l :: ls =>
    match parseLine l, assembleLines ls with
    | some none, some bs => some bs
    | some (some a), some bs => (assemble a).map (· :: bs)
    | _, _ => none

end Sys2Proof.Machine
end

