-- ==== Sys2Proof/Machine/HostInterface.lean ====
section
/-! DEFINITION. What the host can do to one engine, and the engine's step, as events: write a beat, collect a response, assert
reset (R32, R56, R260, R261, R264), and runs (R270). -/

namespace Sys2Proof.Machine

/-- The host writes one beat; it waits in the command channel behind the beats written before it (R57, R264). -/
def State.send (b : Beat) (s : State) : State := { s with pending := s.pending ++ [b] }

/-- The host writes the beats one after another. -/
def State.sendAll (bs : List Beat) (s : State) : State := { s with pending := s.pending ++ bs }

/-- The oldest response, if there is one, is delivered, once (R56). -/
def State.receive (s : State) : State := { s with responses := s.responses.tail }

/-- The host asserts reset (R260). A step is a whole command, so reset falls between beats (R261); the beats still waiting are gone
with the rest of the channel, and no response is produced. -/
def State.assertReset (_s : State) : State := State.reset

/-- One event at one engine. -/
inductive Event where
  /-- The host writes a beat. -/
  | send (b : Beat)
  /-- The host collects the oldest response. -/
  | receive
  /-- The host asserts reset. -/
  | reset
  /-- The engine takes one step. -/
  | step
  deriving DecidableEq, Repr

/-- What an event does. -/
def applyEvent (e : Event) (s : State) : Host.Outcome State Fault Refusal :=
  match e with
  | .send b => .next (s.send b)
  | .receive => .next s.receive
  | .reset => .next s.assertReset
  | .step => step s

/-- Events one after another, up to the first that stops. -/
def applyEvents : List Event → State → Host.Outcome State Fault Refusal
  | [], s => .next s
  | e :: es, s =>
    match applyEvent e s with
    | .next t => applyEvents es t
    | .fault r => .fault r
    | .refused r => .refused r

/-- `n` steps of the engine. -/
def runSteps : Nat → State → Host.Outcome State Fault Refusal
  | 0, s => .next s
  | n + 1, s =>
    match step s with
    | .next t => runSteps n t
    | .fault r => .fault r
    | .refused r => .refused r

/-- A run (R270): the host writes the beats, and the engine steps until it has answered the last of them. -/
def runBeats (bs : List Beat) (s : State) : Host.Outcome State Fault Refusal :=
  runSteps (s.pending.length + bs.length) (s.sendAll bs)

end Sys2Proof.Machine
end

