-- ==== Sys2Proof/Machine/OneShot.lean ====
section
/-! DEFINITION. The one-shot function hash(M) (R215), and the pseudo-instruction HASH, the host's sequence of beats that computes it
(R85). -/

namespace Sys2Proof.Machine

/-- H after the whole message: pad, segment, compress block after block (R215). -/
def messageState (m : List Byte) : HashState := processBlocks iv (blocks (pad m))

/-- hash(M) (R215): the digest, or LengthOverflow with no digest where len(M) > LEN_MAX. -/
def oneShot (m : List Byte) : Except Status (List Byte) :=
  if m.length ≤ Config.lenMax then .ok (serialize (messageState m)) else .error .lengthOverflow

/-- The beats HASH m expands to: INIT, UPDATEB m, FINALIZE (R85). -/
def hashProgram (m : List Byte) : List Beat := encode .init :: updateB m ++ [encode .finalize]

/-- The host writes one beat, lets the engine answer, and collects every response; the newest is the one to its beat (R57).
DESIGN CHOICE (log entry 12): the host empties the response channel after every beat. -/
def transact (b : Beat) (s : State) : Host.Outcome (State × Option Response) Fault Refusal :=
  match runBeats [b] s with
  | .next t => .next ({ t with responses := [] }, t.responses.getLast?)
  | .fault r => .fault r
  | .refused r => .refused r

/-- Does the response report OK? -/
def Response.isOk (r : Response) : Bool := decide (r.statusField = Status.ok.code)

/-- The host issues the beats in order and stops at the first whose STATUS is not OK (R85); the outcome is the last response it
collected. -/
def issueUntilError : List Beat → Option Response → State → Host.Outcome (State × Option Response) Fault Refusal
  | [], last, s => .next (s, last)
  | b :: bs, _, s =>
    match transact b s with
    | .next (t, some r) => if r.isOk then issueUntilError bs (some r) t else .next (t, some r)
    | .next (t, none) => .next (t, none)
    | .fault r => .fault r
    | .refused r => .refused r

/-- HASH m (R85). -/
def hashMessage (m : List Byte) (s : State) : Host.Outcome (State × Option Response) Fault Refusal :=
  issueUntilError (hashProgram m) none s

end Sys2Proof.Machine
end

