-- ==== Sys2Proof/Machine/System.lean ====
section
/-! DEFINITION. Several engines (R34, R58, R245): N_ENGINES independent states, each with its own channels, no shared state and no
signal between them; the host tells them apart by the channel it uses. -/

namespace Sys2Proof.Machine

/-- A system of engines, the engine on channel k at position k. -/
structure System where
  /-- N_ENGINES and LATENCY (R8). -/
  params : Config.Params
  /-- The engines' states. -/
  engines : List State
  deriving DecidableEq, Repr

/-- Every engine leaves reset in the state of R260 (R245). -/
def System.reset (p : Config.Params) : System := ⟨p, List.replicate p.nEngines State.reset⟩

/-- N_ENGINES ≥ 1 (R8), and there are that many engines. -/
def System.wf (y : System) : Bool := y.params.legal && decide (y.engines.length = y.params.nEngines)

/-- An event on channel k: the engine on that channel makes it, the others keep their states (R34, R245). A number with no engine names
no channel, and nothing happens on it (DESIGN CHOICE, log entry 9). -/
def System.applyEvent (k : Nat) (e : Event) (y : System) : Host.Outcome System Fault Refusal :=
  match y.engines[k]? with
  | none => .next y
  | some s =>
    match Machine.applyEvent e s with
    | .next t => .next { y with engines := y.engines.set k t }
    | .fault r => .fault r
    | .refused r => .refused r

/-- An execution: any interleaving of the engines' events (R58), up to the first that stops. -/
def System.run : List (Nat × Event) → System → Host.Outcome System Fault Refusal
  | [], y => .next y
  | (k, e) :: es, y =>
    match y.applyEvent k e with
    | .next z => z.run es
    | .fault r => .fault r
    | .refused r => .refused r

/-- The events of an execution on channel k, in their order. -/
def eventsOn (k : Nat) (es : List (Nat × Event)) : List Event :=
  es.filterMap fun p => if p.1 = k then some p.2 else none

end Sys2Proof.Machine
end

