-- ==== Sys2Proof/Safety.lean ====
section
/-! DEFINITION. The terms claims are stated in: the invariants between commands (R25), the form of every response (R80, R81, R230),
sums of words in any order
and association (R179), and the states a run reaches. -/

namespace Sys2Proof.Machine

/-- R25, items 1 to 5. -/
abbrev State.Inv (s : State) : Prop :=
  (s.phase ≠ .finalized → s.buf.length = s.len.toNat % 64) ∧
  (s.phase = .initialized ↔ s.phase ≠ .finalized ∧ s.len.toNat < 64) ∧
  (s.phase = .processing ↔ s.phase ≠ .finalized ∧ 64 ≤ s.len.toNat) ∧
  (s.phase = .finalized → s.buf = []) ∧
  s.len.toNat ≤ Config.lenMax

/-- The form of a response (R80, R81, R230, U8): STATUS 0 to 3, PHASE 0 to 2, ZERO 0, and a digest payload exactly when the STATUS is OK
and the phase Finalized. -/
abbrev Response.Legal (r : Response) : Prop :=
  r.statusField.toNat ≤ 3 ∧ r.phaseField.toNat ≤ 2 ∧ r.zeroField = 0 ∧
  (r.digest.isSome = true ↔ r.statusField = 0 ∧ r.phaseField = 2)

/-- Every response in the channel has that form. -/
abbrev State.ResponsesLegal (s : State) : Prop := ∀ r ∈ s.responses, r.Legal

/-- The part of the state that R232 speaks of, H, phase, buf and L, is the same in both. -/
abbrev State.SameMessage (s t : State) : Prop :=
  t.hash = s.hash ∧ t.phase = s.phase ∧ t.buf = s.buf ∧ t.len = s.len

/-- A way to add words two at a time, in any order and association (R179). -/
inductive SumTree where
  | word (w : Word)
  | add (l r : SumTree)
  deriving DecidableEq, Repr

/-- The words a tree adds, left to right. -/
def SumTree.words : SumTree → List Word
  | .word w => [w]
  | .add l r => l.words ++ r.words

/-- The sum a tree computes, each addition mod 2^32. -/
def SumTree.sum : SumTree → Word
  | .word w => w
  | .add l r => l.sum + r.sum

/-- The states a run reaches: reset, and what an event makes of a reached state (R270). -/
inductive Reachable : State → Prop where
  | reset : Reachable State.reset
  | event {s t : State} (e : Event) (hs : Reachable s) (ht : applyEvent e s = .next t) : Reachable t

end Sys2Proof.Machine
end

