-- ==== Sys2Proof/Certificates/Slice0/Obligations.lean ====
section
/-! DEFINITION. The statements about the engine, for the provers. Each is one `Prop`; its docstring names the rule it formalises. -/

open Sys2Proof Sys2Proof.Machine

/-! ### Encoding -/

/-- R72 to R76: decoding the beat of a well-formed command gives the command back, every operand byte at every value. -/
def Obligations.DecodeOfEncodedCommand : Prop :=
  ∀ i : Instr, i.wellFormed = true → decode (encode i) = .ok i

/-- The other direction: a beat that decodes to a command has the CMD word of that command's encoding, and its first NB lanes are the
command's bytes. Nothing else of the beat matters (R72, R75). -/
def Obligations.EncodeOfDecodedBeat : Prop :=
  ∀ (b : Beat) (i : Instr), decode b = .ok i →
    b.cmd = (encode i).cmd ∧ b.nb.toNat = i.bytes.length ∧ i.bytes = b.lanes.take i.bytes.length ∧
    (encode i).lanes.take i.bytes.length = b.lanes.take i.bytes.length

/-- R78: of the CMD words exactly seven are legal, whatever DATA holds; exactly three OP values occur in them, and OP names the
command. -/
def Obligations.SevenLegalCommandWords : Prop :=
  (∀ b : Beat, (∃ i, decode b = .ok i) ↔
    b.cmd ∈ [(0x00000001 : Word), 0x00000002, 0x00000012, 0x00000022, 0x00000032, 0x00000042, 0x00000003]) ∧
  (∀ v : BitVec 4, (∃ (b : Beat) (i : Instr), decode b = .ok i ∧ b.op = v) ↔ v = 1 ∨ v = 2 ∨ v = 3) ∧
  (∀ (b : Beat) (i : Instr), decode b = .ok i →
    (b.op = 1 ↔ i = .init) ∧ (b.op = 2 ↔ i.isUpdate = true) ∧ (b.op = 3 ↔ i = .finalize))

/-- R77: each of the four kinds of illegal beat raises IllegalCommand, status 3, with no state change, in every state. -/
def Obligations.IllegalBeatsRaiseIllegalCommand : Prop :=
  ∀ (s : State) (b : Beat) (rest : List Beat), s.pending = b :: rest →
    ((b.op ≠ 1 ∧ b.op ≠ 2 ∧ b.op ≠ 3) ∨ b.rsvd ≠ 0 ∨ ((b.op = 1 ∨ b.op = 3) ∧ b.nb ≠ 0) ∨
      (b.op = 2 ∧ 5 ≤ b.nb.toNat)) →
    ∃ r : Response, step s = .next { s with pending := rest, responses := s.responses ++ [r] } ∧
      r.statusField = 3 ∧ r.phaseField = s.phase.code ∧ r.zeroField = 0 ∧ r.digest = none

/-- R74, R75: CMD = 2 + 16·NB with NB 0 to 4 is an UPDATE whose operand is the first NB lanes of DATA, most significant lane first,
whatever the other lanes hold. -/
def Obligations.UpdateOperandIsFirstLanes : Prop :=
  ∀ (b : Beat) (nb : Nat), nb ≤ 4 → b.cmd = BitVec.ofNat 32 (2 + 16 * nb) →
    ∃ i : Instr, decode b = .ok i ∧ i.isUpdate = true ∧
      i.bytes = [b.data.extractLsb' 24 8, b.data.extractLsb' 16 8, b.data.extractLsb' 8 8, b.data.extractLsb' 0 8].take nb

/-- R73, R76: INIT is exactly CMD 0x00000001 and FINALIZE exactly CMD 0x00000003, with any DATA; and two such beats that differ in
DATA alone make the same step. -/
def Obligations.InitAndFinalizeIgnoreData : Prop :=
  (∀ b : Beat, decode b = .ok .init ↔ b.cmd = 0x00000001) ∧
  (∀ b : Beat, decode b = .ok .finalize ↔ b.cmd = 0x00000003) ∧
  (∀ (s : State) (cmd data data' : Word) (rest : List Beat), cmd = 0x00000001 ∨ cmd = 0x00000003 →
    step { s with pending := ⟨cmd, data⟩ :: rest } = step { s with pending := ⟨cmd, data'⟩ :: rest })

/-- Words written out from the encodings of R71 to R77 decode to the commands they stand for. -/
def Obligations.WrittenOutWordsDecode : Prop :=
  decode ⟨0b00000000000000000000000000000001, 0xdeadbeef⟩ = .ok .init ∧
  decode ⟨0b00000000000000000000000000110010, 0x616263ff⟩ = .ok (.update3 0x61 0x62 0x63) ∧
  decode ⟨0b00000000000000000000000001000010, 0x41424344⟩ = .ok (.update4 0x41 0x42 0x43 0x44) ∧
  decode ⟨0b00000000000000000000000000000011, 0⟩ = .ok .finalize ∧
  decode ⟨0b00000000000000000000000001010010, 0⟩ = .error .byteCountTooLarge ∧
  decode ⟨0b00000000000000000000000000010001, 0⟩ = .error .byteCountNotZero ∧
  decode ⟨0b00000000000000000000000000000000, 0⟩ = .error .reservedOpcode ∧
  decode ⟨0b10000000000000000000000000000010, 0⟩ = .error .reservedBits

/-! ### The step and the response -/

/-- R195, R247: a step with a legal beat at the head of the command channel is `exec` of the decoded command in the state without that
beat; with an illegal beat it is the rejection; with an empty channel the state stays (the model's form of R247, log entry 5). -/
def Obligations.StepRunsTheDecodedCommand : Prop :=
  ∀ s : State,
    (∀ (b : Beat) (rest : List Beat) (i : Instr), s.pending = b :: rest → decode b = .ok i →
      step s = exec i { s with pending := rest }) ∧
    (∀ (b : Beat) (rest : List Beat) (why : Illegal), s.pending = b :: rest → decode b = .error why →
      step s = .next { s with pending := rest, responses := s.responses ++ [⟨respWord .illegalCommand s.phase, none⟩] }) ∧
    (s.pending = [] → step s = .next s)

/-- R195: in every state that meets R25 the step has a next state: no beat leaves the engine stuck, and nothing is refused. -/
def Obligations.StepNeverStops : Prop :=
  ∀ s : State, s.Inv → ∃ t, step s = .next t

/-- R152 (treatment U2): FINALIZE of an open message whose tail is no whole number of blocks is the one thing that faults, and nothing
is refused. The fault is the model's own (log entry 6). -/
def Obligations.OnlyTheSegmenterBreachFaults : Prop :=
  ∀ (i : Instr) (s : State),
    ((∃ r, exec i s = .fault r) ↔ i = .finalize ∧ s.phase ≠ .finalized ∧ s.buf.length % 64 ≠ s.len.toNat % 64) ∧
    (∀ r, exec i s ≠ .refused r)

/-- R80, R81, R22: the RESP word carries the status code in its bits [3:0], the phase code in [5:4] and zeros above. -/
def Obligations.RespWordFields : Prop :=
  ∀ (st : Status) (ph : Phase),
    (respWord st ph).extractLsb' 0 4 =
      (match st with | .ok => 0 | .useAfterFinalize => 1 | .lengthOverflow => 2 | .illegalCommand => 3) ∧
    (respWord st ph).extractLsb' 4 2 = (match ph with | .initialized => 0 | .processing => 1 | .finalized => 2) ∧
    (respWord st ph).extractLsb' 6 26 = 0

/-- R80: every beat, legal or not, produces exactly one response, after those of the beats before it; its PHASE is the phase after the
command; it carries the digest, the words of H, exactly when the beat is a FINALIZE and STATUS is OK; and the beat is consumed. -/
def Obligations.OneResponsePerBeat : Prop :=
  ∀ (s t : State) (b : Beat) (rest : List Beat), s.pending = b :: rest → step s = .next t →
    ∃ r : Response, t.responses = s.responses ++ [r] ∧ t.pending = rest ∧
      r.statusField.toNat ≤ 3 ∧ r.phaseField = t.phase.code ∧ r.zeroField = 0 ∧
      r.digest = if decode b = .ok .finalize ∧ r.statusField = 0 then some t.hash else none

/-- R80, R81, R230: a step keeps every response in the channel of the legal form: STATUS 0 to 3, PHASE 0 to 2, ZERO 0, a digest exactly
with OK and Finalized. -/
def Obligations.StepKeepsResponsesLegal : Prop :=
  ∀ s t : State, s.ResponsesLegal → step s = .next t → t.ResponsesLegal

/-- R32, R56, R82: a response with a digest delivers RESP and then DIGEST0 first; port P2 reads RESP and port P(3+i) reads DIGESTi; without
a digest only P2 reads. -/
def Obligations.ResponsePorts : Prop :=
  ∀ (w : Word) (d : HashState),
    Response.words ⟨w, some d⟩ = [w, d.h0, d.h1, d.h2, d.h3, d.h4, d.h5, d.h6, d.h7] ∧
    Response.words ⟨w, none⟩ = [w] ∧
    (∀ k : Nat, Response.readPort ⟨w, some d⟩ k = if 2 ≤ k then (Response.words ⟨w, some d⟩)[k - 2]? else none) ∧
    (∀ k : Nat, Response.readPort ⟨w, none⟩ k = if k = 2 then some w else none)

/-! ### INIT and reset -/

/-- R260: reset sets H to the IV, the phase to Initialized, the buffer to empty, L to zero and both channels to empty, from any state; it
is what INIT writes to H, phase, buf and L. -/
def Obligations.ResetState : Prop :=
  (∀ s : State, s.assertReset =
    { hash := ⟨0x6a09e667, 0xbb67ae85, 0x3c6ef372, 0xa54ff53a, 0x510e527f, 0x9b05688c, 0x1f83d9ab, 0x5be0cd19⟩,
      phase := .initialized, buf := [], len := 0, pending := [], responses := [] }) ∧
  State.reset.assertReset = State.reset ∧
  (∀ s t : State, exec .init s = .next t → State.SameMessage State.reset t)

/-- R200, R201: INIT from any state, in any phase, gives H = IV, an empty buffer, L = 0, phase Initialized and RESP = 0x00000000, with no
error, and touches nothing else; and so does a step that takes the beat 0x00000001, whatever its DATA. -/
def Obligations.InitResult : Prop :=
  (∀ s : State, exec .init s = .next { s with
    hash := ⟨0x6a09e667, 0xbb67ae85, 0x3c6ef372, 0xa54ff53a, 0x510e527f, 0x9b05688c, 0x1f83d9ab, 0x5be0cd19⟩
    phase := .initialized
    buf := []
    len := 0
    responses := s.responses ++ [⟨0x00000000, none⟩] }) ∧
  (∀ (s : State) (data : Word) (rest : List Beat), s.pending = ⟨0x00000001, data⟩ :: rest →
    step s = exec .init { s with pending := rest })

/-! ### UPDATE -/

/-- R203: UPDATE with NB = 0 appends nothing, changes no state and responds OK, except that in phase Finalized it raises
UseAfterFinalize. -/
def Obligations.EmptyUpdateResult : Prop :=
  ∀ s : State, exec .update0 s = .next { s with responses := s.responses ++
    [⟨respWord (if s.phase = .finalized then .useAfterFinalize else .ok) s.phase, none⟩] }

/-- R202, R204, R205: UPDATE of 0 to 4 bytes (update0 to update4) in an open message, the bytes within LEN_MAX, appends them in order and
counts them. If they bring the fill to 64 the block is compressed at once, the bytes beyond it start the next buffer and the phase is
Processing; otherwise H and the phase stay. The response is OK. Nothing else changes. -/
def Obligations.UpdateResult : Prop :=
  ∀ (i : Instr) (s : State), i.isUpdate = true → s.phase ≠ .finalized → s.buf.length ≤ 63 →
    s.len.toNat + i.bytes.length ≤ 2 ^ 61 - 1 →
    ∃ t : State, exec i s = .next t ∧
      t.len.toNat = s.len.toNat + i.bytes.length ∧
      t.buf.length ≤ 63 ∧
      t.pending = s.pending ∧
      t.responses = s.responses ++ [⟨respWord .ok t.phase, none⟩] ∧
      (s.buf.length + i.bytes.length < 64 →
        t.buf = s.buf ++ i.bytes ∧ t.hash = s.hash ∧ t.phase = s.phase) ∧
      (64 ≤ s.buf.length + i.bytes.length →
        t.buf = (s.buf ++ i.bytes).drop 64 ∧ t.hash = processBlock s.hash ((s.buf ++ i.bytes).take 64) ∧
        t.phase = .processing)

/-- R233, R213: an UPDATE in an open message whose bytes would take L above LEN_MAX raises LengthOverflow, status 2, and takes no byte; and
no command raises it otherwise. -/
def Obligations.LengthOverflowExactly : Prop :=
  (∀ (i : Instr) (s : State), i.isUpdate = true → s.phase ≠ .finalized → 2 ^ 61 - 1 < s.len.toNat + i.bytes.length →
    ∃ r : Response, exec i s = .next { s with responses := s.responses ++ [r] } ∧
      r.statusField = 2 ∧ r.phaseField = s.phase.code ∧ r.zeroField = 0 ∧ r.digest = none) ∧
  (∀ (i : Instr) (s t : State) (r : Response), exec i s = .next t → t.responses = s.responses ++ [r] → r.statusField = 2 →
    i.isUpdate = true ∧ s.phase ≠ .finalized ∧ 2 ^ 61 - 1 < s.len.toNat + i.bytes.length)

/-! ### FINALIZE -/

/-- R210, R211, R212: FINALIZE of an open message whose fill is L mod 64 compresses one block when the fill is at most 55 and two, in
order, when it is at least 56; the digest is the final H, RESP is 0x00000020, the buffer is emptied, the phase is Finalized and L and the
rest keep their values. -/
def Obligations.FinalizeResult : Prop :=
  ∀ s : State, s.phase ≠ .finalized → s.buf.length = s.len.toNat % 64 →
    ∃ (lenField : List Byte) (h : HashState),
      lenField.length = 8 ∧ lenField.foldl (fun n b => 256 * n + b.toNat) 0 = 8 * s.len.toNat ∧
      h = (if s.buf.length ≤ 55 then
          processBlock s.hash (s.buf ++ [0x80] ++ List.replicate (55 - s.buf.length) 0 ++ lenField)
        else
          processBlock (processBlock s.hash (s.buf ++ [0x80] ++ List.replicate (63 - s.buf.length) 0))
            (List.replicate 56 0 ++ lenField)) ∧
      exec .finalize s = .next { s with
        hash := h, buf := [], phase := .finalized, responses := s.responses ++ [⟨0x00000020, some h⟩] }

/-! ### Errors -/

/-- R231: every UPDATE, of any NB, and FINALIZE, in phase Finalized, raises UseAfterFinalize, status 1 with PHASE Finalized, and changes
nothing. -/
def Obligations.UseAfterFinalizeRaised : Prop :=
  ∀ (i : Instr) (s : State), s.phase = .finalized → i.isUpdate = true ∨ i = .finalize →
    exec i s = .next { s with responses := s.responses ++ [⟨0x00000021, none⟩] }

/-- R232: a beat that ends in an error, whatever the code, leaves H, phase, buf and L as they were; its response is
respond(code, none) with the unchanged phase; the beat is consumed and nothing else changes. -/
def Obligations.RejectedBeatChangesNoState : Prop :=
  ∀ (s t : State) (b : Beat) (rest : List Beat) (r : Response), s.pending = b :: rest → step s = .next t →
    t.responses = s.responses ++ [r] → r.statusField ≠ 0 →
    t = { s with pending := rest, responses := s.responses ++ [r] } ∧ r.digest = none ∧ r.phaseField = s.phase.code

/-- R236: in a state that meets R25 a beat gets exactly one status: IllegalCommand if it does not decode, else UseAfterFinalize, else
LengthOverflow, else OK. -/
def Obligations.ErrorPriority : Prop :=
  ∀ (s : State) (b : Beat) (rest : List Beat), s.Inv → s.pending = b :: rest →
    ∃ (t : State) (r : Response), step s = .next t ∧ t.responses = s.responses ++ [r] ∧
      r.statusField =
        (match decode b with
        | .error _ => 3
        | .ok i =>
          if (i.isUpdate = true ∨ i = .finalize) ∧ s.phase = .finalized then 1
          else if i.isUpdate = true ∧ 2 ^ 61 - 1 < s.len.toNat + i.bytes.length then 2
          else 0)

/-- R214: in phase Finalized INIT is accepted; every other beat is answered with an error, UseAfterFinalize for a legal one and
IllegalCommand for an illegal one, and changes nothing. -/
def Obligations.FinalizedHoldsUntilInit : Prop :=
  ∀ (s : State) (b : Beat) (rest : List Beat), s.phase = .finalized → s.pending = b :: rest →
    (decode b = .ok .init →
      ∃ t : State, step s = .next t ∧ t.phase = .initialized ∧ t.responses = s.responses ++ [⟨0x00000000, none⟩]) ∧
    (decode b ≠ .ok .init →
      ∃ r : Response, step s = .next { s with pending := rest, responses := s.responses ++ [r] } ∧
        r.statusField = (match decode b with | .ok _ => 1 | .error _ => 3) ∧ r.digest = none)

/-- R238: a beat that gets an error gets the same error again when it is issued again in the state the error left. -/
def Obligations.RetryFailsIdentically : Prop :=
  ∀ (s t : State) (b : Beat) (rest : List Beat) (r : Response), s.pending = b :: b :: rest → step s = .next t →
    t.responses = s.responses ++ [r] → r.statusField ≠ 0 →
    ∃ u, step t = .next u ∧ u.responses = s.responses ++ [r, r] ∧ State.SameMessage s u

/-! ### Frames, phases and invariants -/

/-- R33 and R20 to R24: what each command leaves alone when it gives a next state. Every command keeps the command channel and the
responses already there. INIT is free to write H, phase, buf and L. An UPDATE (update0 to update4) writes H and the phase only when a
block completes. FINALIZE keeps L. -/
def Obligations.CommandFrame : Prop :=
  ∀ (i : Instr) (s t : State), exec i s = .next t →
    t.pending = s.pending ∧
    (∃ r, t.responses = s.responses ++ [r]) ∧
    (i.isUpdate = true → s.buf.length + i.bytes.length < 64 → t.hash = s.hash ∧ t.phase = s.phase) ∧
    (i.isUpdate = true → t.phase = s.phase ∨ t.phase = .processing ∧ s.phase ≠ .finalized) ∧
    (i = .finalize → t.len = s.len)

/-- R196: the phase after each beat, for each phase before it, in a state that meets R25. -/
def Obligations.PhaseTransitions : Prop :=
  ∀ (s : State) (b : Beat) (rest : List Beat), s.Inv → s.pending = b :: rest →
    ∃ t : State, step s = .next t ∧
      (∀ why, decode b = .error why → t.phase = s.phase) ∧
      (decode b = .ok .init → t.phase = .initialized) ∧
      (∀ i, decode b = .ok i → i.isUpdate = true →
        t.phase = (match s.phase with
          | .initialized => if 64 ≤ s.buf.length + i.bytes.length then .processing else .initialized
          | .processing => .processing
          | .finalized => .finalized)) ∧
      (decode b = .ok .finalize → t.phase = .finalized)

/-- R25: the reset state meets the invariants, and has no response that could be illegal. -/
def Obligations.ResetMeetsInvariant : Prop :=
  State.reset.Inv ∧ State.reset.ResponsesLegal

/-- R25: every step keeps the invariants, from every state that meets them. -/
def Obligations.StepKeepsInvariant : Prop :=
  ∀ s t : State, s.Inv → step s = .next t → t.Inv

/-- R25, R23, R270: every state that reset, beats, deliveries and further resets can lead to meets the invariants, has a fill of at most
63, holds only legal responses, and takes a step. -/
def Obligations.ReachedStatesAreSound : Prop :=
  ∀ s : State, Reachable s → s.Inv ∧ s.buf.length ≤ 63 ∧ s.ResponsesLegal ∧ ∃ t, step s = .next t

/-! ### Runs -/

/-- R206: INIT and then UPDATE beats whose bytes concatenate to S, with len(S) ≤ LEN_MAX, from any state: every one responds OK, L is
len(S), the buffer holds the bytes after the last whole block, H is the IV with the whole blocks compressed in order, and the phase is
Initialized exactly when there is none. -/
def Obligations.UpdatesConcatenate : Prop :=
  ∀ (s : State) (b0 : Beat) (bs rest : List Beat) (is : List Instr), s.pending = b0 :: bs ++ rest →
    decode b0 = .ok .init → bs.map decode = is.map .ok → (∀ i ∈ is, i.isUpdate = true) →
    (is.flatMap Instr.bytes).length ≤ 2 ^ 61 - 1 →
    ∃ (t : State) (rs : List Response), runSteps (bs.length + 1) s = .next t ∧ t.pending = rest ∧
      t.responses = s.responses ++ rs ∧ rs.length = bs.length + 1 ∧ (∀ r ∈ rs, r.statusField = 0 ∧ r.digest = none) ∧
      t.len.toNat = (is.flatMap Instr.bytes).length ∧
      t.buf = (is.flatMap Instr.bytes).drop (64 * ((is.flatMap Instr.bytes).length / 64)) ∧
      t.hash = ((List.range ((is.flatMap Instr.bytes).length / 64)).map fun j =>
        ((is.flatMap Instr.bytes).drop (64 * j)).take 64).foldl processBlock iv ∧
      t.phase = if (is.flatMap Instr.bytes).length / 64 = 0 then .initialized else .processing

/-- R216: INIT, UPDATE beats for any split of a message M with len(M) ≤ LEN_MAX, FINALIZE, from any state: every beat responds OK, and
the digest of the last response, serialised, is hash(M). -/
def Obligations.IncrementalEqualsOneShot : Prop :=
  ∀ (s : State) (b0 bf : Beat) (bs rest : List Beat) (is : List Instr), s.pending = b0 :: bs ++ bf :: rest →
    decode b0 = .ok .init → bs.map decode = is.map .ok → (∀ i ∈ is, i.isUpdate = true) → decode bf = .ok .finalize →
    (is.flatMap Instr.bytes).length ≤ 2 ^ 61 - 1 →
    ∃ (t : State) (rs : List Response) (d : HashState), runSteps (bs.length + 2) s = .next t ∧ t.pending = rest ∧
      t.responses = s.responses ++ rs ++ [⟨0x00000020, some d⟩] ∧ rs.length = bs.length + 1 ∧
      (∀ r ∈ rs, r.statusField = 0 ∧ r.digest = none) ∧ t.phase = .finalized ∧
      oneShot (is.flatMap Instr.bytes) = .ok (serialize d)

/-- R85: the pseudo-instruction HASH on an engine whose channels the host has emptied ends with hash(M) when len(M) ≤ LEN_MAX, the engine
in phase Finalized; and with LengthOverflow and no digest when the message is longer. How the host collects the responses between its
beats is the model's choice (log entry 12). -/
def Obligations.HashProgramComputesHash : Prop :=
  ∀ (m : List Byte) (s : State), s.pending = [] →
    ∃ (t : State) (r : Response), hashMessage m s = .next (t, some r) ∧ t.pending = [] ∧
      (m.length ≤ 2 ^ 61 - 1 → r.statusField = 0 ∧ t.phase = .finalized ∧
        ∃ d, r.digest = some d ∧ oneShot m = .ok (serialize d)) ∧
      (2 ^ 61 - 1 < m.length → r.statusField = 2 ∧ r.digest = none ∧ oneShot m = .error .lengthOverflow)

/-- R263: after an INIT every later response, and H, phase, buf and L, depend only on the beats from that INIT on, not on the state
before it. -/
def Obligations.InitForgetsThePast : Prop :=
  ∀ (s₁ s₂ t₁ : State) (b : Beat) (rest : List Beat) (n : Nat), s₁.pending = b :: rest → s₂.pending = b :: rest →
    decode b = .ok .init → runSteps (n + 1) s₁ = .next t₁ →
    ∃ (t₂ : State) (rs : List Response), runSteps (n + 1) s₂ = .next t₂ ∧ State.SameMessage t₁ t₂ ∧
      t₂.pending = t₁.pending ∧ t₁.responses = s₁.responses ++ rs ∧ t₂.responses = s₂.responses ++ rs

/-- R270, R195: a run from a state that meets R25, its command channel empty, ends: every beat the host writes is taken and answered by
one response, the responses stand in the channel in order behind those before them, and the end state meets R25. -/
def Obligations.EveryBeatIsAnswered : Prop :=
  ∀ (bs : List Beat) (s : State), s.Inv → s.pending = [] →
    ∃ (t : State) (rs : List Response), runBeats bs s = .next t ∧ t.Inv ∧ t.pending = [] ∧
      t.responses = s.responses ++ rs ∧ rs.length = bs.length ∧
      ∀ (k : Nat), k ≤ bs.length → ∃ u : State, runBeats (bs.take k) s = .next u ∧ u.responses = s.responses ++ rs.take k

/-- R264, R57: a beat the host writes while others still wait is held, not lost and not reordered: writing it before or after the step
makes no difference. That any number of beats can wait is the model's choice (log entry 1). -/
def Obligations.EarlyBeatIsHeld : Prop :=
  ∀ (s t : State) (b : Beat), s.pending ≠ [] → step s = .next t → step (s.send b) = .next (t.send b)

/-- R58, R34: in a system of engines, what an execution makes of one engine is what that engine's own events make of it; and every
interleaving of the same events of each engine ends in the same system. -/
def Obligations.EnginesAreIndependent : Prop :=
  (∀ (es : List (Nat × Event)) (y z : System) (k : Nat) (s : State), y.run es = .next z → y.engines[k]? = some s →
    ∃ t, applyEvents (eventsOn k es) s = .next t ∧ z.engines[k]? = some t) ∧
  (∀ (es es' : List (Nat × Event)) (y z : System), (∀ k, eventsOn k es = eventsOn k es') → y.run es = .next z →
    y.run es' = .next z)

/-- R245, R34: every engine of a system leaves reset in the state of R260, a system of at least one engine (R8) stays one, and an event
on one channel leaves every other engine alone. -/
def Obligations.SystemResetAndFrame : Prop :=
  (∀ p : Config.Params, (p.legal = true → (System.reset p).wf = true) ∧ (System.reset p).engines.length = p.nEngines ∧ (System.reset p).params = p ∧
    ∀ k < p.nEngines, (System.reset p).engines[k]? = some State.reset) ∧
  (∀ (y z : System) (k : Nat) (e : Event), y.applyEvent k e = .next z → (y.wf = true → z.wf = true) ∧
    z.params = y.params ∧ z.engines.length = y.engines.length ∧ ∀ j, j ≠ k → z.engines[j]? = y.engines[j]?)

/-! ### Padder and segmenter -/

/-- R131, R132, R133: the padded message is M, one byte 0x80, the least number of zero bytes that takes the length to 56 mod 64, and the
eight bytes whose big-endian value is the bit-length 8·L. -/
def Obligations.PadLayout : Prop :=
  ∀ m : List Byte, m.length ≤ 2 ^ 61 - 1 →
    ∃ (z : Nat) (lenField : List Byte), pad m = m ++ [0x80] ++ List.replicate z 0 ++ lenField ∧
      (m.length + 1 + z) % 64 = 56 ∧ (∀ z', (m.length + 1 + z') % 64 = 56 → z ≤ z') ∧
      lenField.length = 8 ∧ lenField.foldl (fun n b => 256 * n + b.toNat) 0 = 8 * m.length

/-- R134: the padded length is a multiple of 64, floor((L + 8)/64) + 1 blocks: one more than floor(L/64) when L mod 64 ≤ 55 and two more
when L mod 64 ≥ 56. -/
def Obligations.PaddedLength : Prop :=
  ∀ m : List Byte, (pad m).length = 64 * ((m.length + 8) / 64 + 1) ∧ padBlocks m.length = (m.length + 8) / 64 + 1 ∧
    (∃ z < 64, (m.length + 1 + z) % 64 = 56 ∧ (pad m).length = m.length + 1 + z + 8) ∧
    (m.length % 64 ≤ 55 → padBlocks m.length = m.length / 64 + 1) ∧
    (56 ≤ m.length % 64 → padBlocks m.length = m.length / 64 + 2)

/-- R136: the tail FINALIZE forms from the bytes after the last whole block and the counter is 64 bytes when they are at most 55 and 128
when they are at least 56, and completes the whole blocks of M to pad(M). -/
def Obligations.TailCompletesThePadding : Prop :=
  ∀ m : List Byte, m.length ≤ 2 ^ 61 - 1 →
    pad m = m.take (64 * (m.length / 64)) ++ tail (m.drop (64 * (m.length / 64))) (BitVec.ofNat 61 m.length) ∧
    (m.length % 64 ≤ 55 → (tail (m.drop (64 * (m.length / 64))) (BitVec.ofNat 61 m.length)).length = 64) ∧
    (56 ≤ m.length % 64 → (tail (m.drop (64 * (m.length / 64))) (BitVec.ofNat 61 m.length)).length = 128)

/-- R150: word i of a block is BE32 of its bytes 4i to 4i+3, for i = 0 to 15. -/
def Obligations.BlockWordAssembly : Prop :=
  ∀ blk : List Byte, blk.length = 64 →
    (blockWords blk).length = 16 ∧
    ∀ i < 16, ((blockWords blk).getD i 0).toNat =
      (blk.getD (4 * i) 0).toNat * 2 ^ 24 + (blk.getD (4 * i + 1) 0).toNat * 2 ^ 16 +
        (blk.getD (4 * i + 2) 0).toNat * 2 ^ 8 + (blk.getD (4 * i + 3) 0).toNat

/-- R54: a DATA word that starts at a word of the block is that block word unchanged, whatever comes before and after it. -/
def Obligations.AlignedDataWordIsBlockWord : Prop :=
  ∀ (b : Beat) (before after : List Byte), before.length % 4 = 0 →
    blockWords (before ++ b.lanes ++ after) = blockWords before ++ b.data :: blockWords after

/-- R151, R152: a sequence of a whole number of blocks segments into blocks of 64 bytes that, in order, are the sequence; any other does
not segment, which is how the model notices the internal invariant breach of R152 (DEDUCED, log entry 6). -/
def Obligations.SegmentsInOrder : Prop :=
  ∀ p : List Byte,
    (p.length % 64 = 0 → ∃ bs, segmentBlocks p = some bs ∧ bs.length = p.length / 64 ∧ (∀ b ∈ bs, b.length = 64) ∧ bs.flatten = p) ∧
    (p.length % 64 ≠ 0 → segmentBlocks p = none)

/-! ### Scheduler and compressor -/

/-- R161: the schedule of sixteen words is 64 words, the first sixteen unchanged and each later one the sum mod 2^32 of four earlier
ones. -/
def Obligations.ScheduleRule : Prop :=
  ∀ m : List Word, m.length = 16 →
    (schedule m).length = 64 ∧
    (∀ t < 16, (schedule m).getD t 0 = m.getD t 0) ∧
    (∀ t < 64, 16 ≤ t → (schedule m).getD t 0 =
      smallSigma1 ((schedule m).getD (t - 2) 0) + (schedule m).getD (t - 7) 0 +
        smallSigma0 ((schedule m).getD (t - 15) 0) + (schedule m).getD (t - 16) 0)

/-- R163: the sliding window of sixteen words gives every round the same W[t] as the schedule. -/
def Obligations.WindowGivesTheSchedule : Prop :=
  ∀ m : List Word, m.length = 16 → ∀ t < 64, windowWord m t = (schedule m).getD t 0

/-- R177, R178: one round, as the simultaneous assignment of the new values and as the document's eight assignments made one at a time, h
first and a last; with d before e instead there is a different result. -/
def Obligations.RoundRule : Prop :=
  (∀ (v : WorkVars) (k w t1 t2 : Word), t1 = v.h + bigSigma1 v.e + ch v.e v.f v.g + k + w → t2 = bigSigma0 v.a + maj v.a v.b v.c →
    compressRound v k w = ⟨t1 + t2, v.a, v.b, v.c, v.d + t1, v.e, v.f, v.g⟩ ∧
    (let v1 := { v with h := v.g }
     let v2 := { v1 with g := v1.f }
     let v3 := { v2 with f := v2.e }
     let v4 := { v3 with e := v3.d + t1 }
     let v5 := { v4 with d := v4.c }
     let v6 := { v5 with c := v5.b }
     let v7 := { v6 with b := v6.a }
     { v7 with a := t1 + t2 }) = compressRound v k w) ∧
  (∃ (v : WorkVars) (k w : Word),
    let v3 := { v with h := v.g, g := v.f, f := v.e }
    let v4 := { v3 with d := v3.c }
    let v5 := { v4 with e := v4.d + temp1 v k w }
    { v5 with c := v5.b, b := v5.a, a := temp1 v k w + temp2 v } ≠ compressRound v k w)

/-- R179: every tree of additions over the five operands of T1, in whatever order and association, computes T1; and in general two trees
over the same words compute the same sum. -/
def Obligations.AddTreeAnyOrder : Prop :=
  (∀ (v : WorkVars) (k w : Word) (t : SumTree),
    t.words.Perm [v.h, bigSigma1 v.e, ch v.e v.f v.g, k, w] → t.sum = temp1 v k w) ∧
  (∀ t u : SumTree, t.words.Perm u.words → t.sum = u.sum)

/-- R176, R180: there are variables before and after each of exactly 64 rounds; they start as H[0..7], round t makes them from those of the
round before it with K[t] and W[t] and no other constant or schedule word, in ascending t, and the last are the result. -/
def Obligations.RoundsAreSerial : Prop :=
  ∀ (h : HashState) (w : List Word), w.length = 64 →
    ∃ v : Nat → WorkVars, v 0 = ⟨h.h0, h.h1, h.h2, h.h3, h.h4, h.h5, h.h6, h.h7⟩ ∧
      (∀ t < 64, v (t + 1) = compressRound (v t) (roundConstants.getD t 0) (w.getD t 0)) ∧
      rounds h w = v 64

/-- R181, R183: ProcessBlock adds, word by word mod 2^32, the working variables after the 64 rounds into the block's input H. -/
def Obligations.BlockAccumulates : Prop :=
  ∀ (h : HashState) (blk : List Byte) (v : WorkVars), v = rounds h (schedule (blockWords blk)) →
    (processBlock h blk).toWords = List.zipWith (· + ·) h.toWords [v.a, v.b, v.c, v.d, v.e, v.f, v.g, v.h] ∧
    ∀ i : Fin 8, (processBlock h blk).toWords[(i : Nat)]? = some ((processBlock h blk).get i)

/-- R182: the digest is 32 bytes, the big-endian concatenation of the eight words of H. -/
def Obligations.DigestSerialisation : Prop :=
  ∀ h : HashState, (serialize h).length = 32 ∧
    ∀ (i : Fin 8) (j : Fin 4), (serialize h)[4 * (i : Nat) + (j : Nat)]? = some ((h.get i).extractLsb' (24 - 8 * (j : Nat)) 8)

/-! ### Round functions -/

/-- R11: the primitives on words as numbers: addition mod 2^32, complement within 32 bits, the logical shift, the rotation. -/
def Obligations.WordPrimitives : Prop :=
  (∀ x y : Word, (x + y).toNat = (x.toNat + y.toNat) % 2 ^ 32) ∧
  (∀ x : Word, ~~~x = x ^^^ 0xFFFFFFFF) ∧
  (∀ (x : Word) (n : Nat), (shr x n).toNat = x.toNat / 2 ^ n) ∧
  (∀ (x : Word) (n : Nat), 0 < n → n < 32 → (rotr x n).toNat = x.toNat / 2 ^ n ||| (x.toNat * 2 ^ (32 - n)) % 2 ^ 32) ∧
  (∀ (x : Word) (n i : Nat), 0 < n → n < 32 → i < 32 → (rotr x n).getLsbD i = x.getLsbD ((i + n) % 32))

/-- R101 to R104, bit by bit: which bits of the operand bit i of σ0, σ1, Σ0 and Σ1 is the exclusive or of. -/
def Obligations.SigmaBits : Prop :=
  ∀ (x : Word) (i : Nat), i < 32 →
    (smallSigma0 x).getLsbD i = (x.getLsbD ((i + 7) % 32) ^^ x.getLsbD ((i + 18) % 32) ^^ (decide (i + 3 < 32) && x.getLsbD (i + 3))) ∧
    (smallSigma1 x).getLsbD i = (x.getLsbD ((i + 17) % 32) ^^ x.getLsbD ((i + 19) % 32) ^^ (decide (i + 10 < 32) && x.getLsbD (i + 10))) ∧
    (bigSigma0 x).getLsbD i = (x.getLsbD ((i + 2) % 32) ^^ x.getLsbD ((i + 13) % 32) ^^ x.getLsbD ((i + 22) % 32)) ∧
    (bigSigma1 x).getLsbD i = (x.getLsbD ((i + 6) % 32) ^^ x.getLsbD ((i + 11) % 32) ^^ x.getLsbD ((i + 25) % 32))

/-- R105, R106, bit by bit: Ch chooses between y and z, Maj is the majority; with the corner cases of both rules. -/
def Obligations.ChooseAndMajorityBits : Prop :=
  (∀ (x y z : Word) (i : Nat), i < 32 →
    (ch x y z).getLsbD i = (if x.getLsbD i = true then y.getLsbD i else z.getLsbD i) ∧
    (maj x y z).getLsbD i = decide (2 ≤ (x.getLsbD i).toNat + (y.getLsbD i).toNat + (z.getLsbD i).toNat)) ∧
  (∀ y z : Word, ch 0 y z = z ∧ ch 0xFFFFFFFF y z = y) ∧
  (∀ x y z : Word, ch x y y = y ∧ maj x x z = x)

/-- R110: the laws of the round functions: linearity over exclusive or, commuting with rotation for Σ0 and Σ1 and not for σ0 and σ1, and
the other forms of Ch and Maj. -/
def Obligations.RoundFunctionLaws : Prop :=
  (∀ f ∈ [smallSigma0, smallSigma1, bigSigma0, bigSigma1], f 0 = 0 ∧ ∀ x y : Word, f (x ^^^ y) = f x ^^^ f y) ∧
  (∀ (x : Word) (n : Nat), 0 < n → n < 32 → bigSigma0 (rotr x n) = rotr (bigSigma0 x) n ∧ bigSigma1 (rotr x n) = rotr (bigSigma1 x) n) ∧
  (∃ (x : Word) (n : Nat), 0 < n ∧ n < 32 ∧ smallSigma0 (rotr x n) ≠ rotr (smallSigma0 x) n) ∧
  (∃ (x : Word) (n : Nat), 0 < n ∧ n < 32 ∧ smallSigma1 (rotr x n) ≠ rotr (smallSigma1 x) n) ∧
  (∀ x y z : Word, ch x y z = (x &&& y) ||| (~~~x &&& z)) ∧
  (∀ x y z : Word, maj x y z = (x &&& y) ||| (x &&& z) ||| (y &&& z) ∧ maj x y z = ch (x ^^^ y) z y)

/-- R109: K[t] is the first 32 bits of the fraction of the cube root of the (t+1)-th prime, and IV[i] those of the square root of the
(i+1)-th, in exact integer arithmetic. The spec marks the derivation as general knowledge (log entry 8). -/
def Obligations.TablesAreTheRootsOfPrimes : Prop :=
  roundConstants.length = 64 ∧
  (∀ t < 64, ∃ n : Nat, n ^ 3 ≤ Nat.nth Nat.Prime t * 2 ^ 96 ∧ Nat.nth Nat.Prime t * 2 ^ 96 < (n + 1) ^ 3 ∧
    (roundConstants.getD t 0).toNat = n % 2 ^ 32) ∧
  (∀ i : Fin 8, ∃ n : Nat, n ^ 2 ≤ Nat.nth Nat.Prime i * 2 ^ 64 ∧ Nat.nth Nat.Prime i * 2 ^ 64 < (n + 1) ^ 2 ∧
    (iv.get i).toNat = n % 2 ^ 32)

/-! ### Assembler -/

/-- R83: an assembler statement with nb ≤ 4, or a string of at most 4 bytes, encodes as the rule says; any other is refused; and no beat
it emits is illegal. -/
def Obligations.AssemblerEncodes : Prop :=
  assemble .init = some ⟨0x00000001, 0⟩ ∧ assemble .finalize = some ⟨0x00000003, 0⟩ ∧
  (∀ (nb : Nat) (d : Word), assemble (.updateWord nb d) = if nb ≤ 4 then some ⟨BitVec.ofNat 32 (2 + 16 * nb), d⟩ else none) ∧
  (∀ s : List Byte, 4 < s.length → assemble (.updateString s) = none) ∧
  (∀ s : List Byte, s.length ≤ 4 → ∃ d : Word, assemble (.updateString s) = assemble (.updateWord s.length d) ∧
    [d.extractLsb' 24 8, d.extractLsb' 16 8, d.extractLsb' 8 8, d.extractLsb' 0 8] = s ++ List.replicate (4 - s.length) 0) ∧
  (∀ (a : Asm) (b : Beat), assemble a = some b → ∃ i, decode b = .ok i)

/-- R84: UPDATEB m is ceil(len(m)/4) UPDATE beats whose bytes concatenate to m, each of 4 bytes except possibly the last, which has 1 to
4. -/
def Obligations.UpdateBSplitsTheMessage : Prop :=
  ∀ m : List Byte, ∃ is : List Instr, (updateB m).map decode = is.map .ok ∧ (∀ i ∈ is, i.isUpdate = true) ∧
    is.length = (m.length + 3) / 4 ∧ is.flatMap Instr.bytes = m ∧
    (∀ j i, is[j]? = some i → j + 1 < is.length → i.bytes.length = 4) ∧ (∀ i ∈ is, 1 ≤ i.bytes.length ∧ i.bytes.length ≤ 4)
end

