-- ==== Sys2Proof/Laws/Data.lean ====
section
/-! SUPPORT. The small lemmas of the data path's definitions: lengths of the padded message, the tail, the blocks and the schedule,
the bytes of the length field, and the fields of the RESP word. -/

namespace Sys2Proof.Machine

/-! ### Byte sequences -/

@[simp] theorem be64Bytes_length (v : BitVec 64) : (be64Bytes v).length = 8 := rfl

@[simp] theorem be32Bytes_length (w : Word) : (be32Bytes w).length = 4 := rfl

@[simp] theorem zeros_length (n : Nat) : (zeros n).length = n := by simp [zeros]

@[simp] theorem slice_length (s : List Byte) (i j : Nat) : (slice s i j).length = min (j - i) (s.length - i) := by
  simp [slice]

/-- The eight bytes, read big-endian, are the value. -/
theorem be64Bytes_value (v : BitVec 64) : (be64Bytes v).foldl (fun n b => 256 * n + b.toNat) 0 = v.toNat := by
  simp only [be64Bytes, List.cons_append, List.nil_append, List.foldl_cons, List.foldl_nil, BitVec.extractLsb'_toNat,
    Nat.shiftRight_eq_div_pow]
  omega

/-- The length field is 8·L (R24, R133). -/
theorem bitLength_toNat (len : BitVec 61) : (bitLength len).toNat = 8 * len.toNat := by
  unfold bitLength
  rw [BitVec.toNat_append]
  simp [Nat.shiftLeft_eq, Nat.mul_comm]

/-! ### Padder -/

theorem padZeros_lt (l : Nat) : padZeros l < 64 := by unfold padZeros; omega

/-- The zero bytes take the length to 56 mod 64 (R131). -/
theorem padZeros_spec (l : Nat) : (l + 1 + padZeros l) % 64 = 56 := by unfold padZeros; omega

/-- z depends on L mod 64 alone (R136). -/
theorem padZeros_mod (l : Nat) : padZeros (l % 64) = padZeros l := by unfold padZeros; omega

theorem padZeros_of_le {l : Nat} (h : l % 64 ≤ 55) : padZeros l = 55 - l % 64 := by unfold padZeros; omega

theorem padZeros_of_gt {l : Nat} (h : 56 ≤ l % 64) : padZeros l = 119 - l % 64 := by unfold padZeros; omega

theorem pad_length (m : List Byte) : (pad m).length = m.length + 1 + padZeros m.length + 8 := by
  simp only [pad, List.length_append, List.length_singleton, zeros_length, be64Bytes_length]

theorem tail_length (buf : List Byte) (len : BitVec 61) :
    (tail buf len).length = buf.length + 1 + padZeros len.toNat + 8 := by
  simp only [tail, List.length_append, List.length_singleton, zeros_length, be64Bytes_length]

/-- The tail is a whole number of blocks exactly when the fill agrees with the counter (R136, R152). -/
theorem tail_length_mod (buf : List Byte) (len : BitVec 61) :
    (tail buf len).length % 64 = 0 ↔ buf.length % 64 = len.toNat % 64 := by
  have := padZeros_spec len.toNat
  rw [tail_length]
  omega

/-! ### Segmenter -/

@[simp] theorem blocks_length (p : List Byte) : (blocks p).length = p.length / 64 := by simp [blocks, Config.blockBytes]

@[simp] theorem blockWords_cons4 (b0 b1 b2 b3 : Byte) (rest : List Byte) :
    blockWords (b0 :: b1 :: b2 :: b3 :: rest) = be32 b0 b1 b2 b3 :: blockWords rest := rfl

@[simp] theorem processBlocks_nil (h : HashState) : processBlocks h [] = h := rfl

@[simp] theorem processBlocks_cons (h : HashState) (blk : List Byte) (blks : List (List Byte)) :
    processBlocks h (blk :: blks) = processBlocks (processBlock h blk) blks := rfl

theorem processBlocks_append (h : HashState) (xs ys : List (List Byte)) :
    processBlocks h (xs ++ ys) = processBlocks (processBlocks h xs) ys := by
  simp [processBlocks, List.foldl_append]

/-- A sequence of whole blocks followed by more: the whole blocks come first. -/
theorem blocks_append {p : List Byte} (hp : p.length % 64 = 0) (q : List Byte) :
    blocks (p ++ q) = blocks p ++ blocks q := by
  obtain ⟨n, hn⟩ : ∃ n, p.length = 64 * n := ⟨p.length / 64, by omega⟩
  have hdiv : (p.length + q.length) / 64 = n + q.length / 64 := by omega
  have hdiv' : p.length / 64 = n := by omega
  unfold blocks slice Config.blockBytes
  rw [List.length_append, hdiv, hdiv', List.range_add, List.map_append, List.map_map]
  congr 1
  · apply List.map_congr_left
    intro j hj
    have : j < n := by simpa using hj
    rw [List.drop_append_of_le_length (by omega), List.take_append_of_le_length (by simp; omega)]
  · apply List.map_congr_left
    intro j _
    have hd : 64 * (n + j) - p.length = 64 * j := by rw [hn]; omega
    simp only [Function.comp, List.drop_append, hd, List.drop_eq_nil_of_le (show p.length ≤ 64 * (n + j) by omega),
      List.nil_append]
    congr 1
    omega

/-- A sequence of exactly one block. -/
theorem blocks_single {p : List Byte} (hp : p.length = 64) : blocks p = [p] := by
  simp [blocks, Config.blockBytes, hp, slice, List.range_succ, List.take_of_length_le]

/-- The bytes after the last whole block make no block. -/
theorem blocks_take_whole (p : List Byte) : blocks (p.take (64 * (p.length / 64))) = blocks p := by
  have hrest : blocks (p.drop (64 * (p.length / 64))) = [] := by
    apply List.eq_nil_of_length_eq_zero
    rw [blocks_length, List.length_drop]
    omega
  conv_rhs => rw [← List.take_append_drop (64 * (p.length / 64)) p]
  rw [blocks_append (by rw [List.length_take]; omega), hrest, List.append_nil]

/-- The blocks of the tail when the length field still fits (R136, R211). -/
theorem blocks_tail_of_le {buf : List Byte} {len : BitVec 61} (h : buf.length = len.toNat % 64) (h55 : buf.length ≤ 55) :
    blocks (tail buf len) = [buf ++ [0x80] ++ List.replicate (55 - buf.length) 0 ++ be64Bytes (bitLength len)] := by
  have hz : padZeros len.toNat = 55 - buf.length := by rw [padZeros_of_le (by omega), h]
  have ht : tail buf len = buf ++ [0x80] ++ List.replicate (55 - buf.length) 0 ++ be64Bytes (bitLength len) := by
    rw [tail, hz, zeros]
  rw [← ht]
  exact blocks_single (by rw [tail_length, hz]; omega)

/-- The blocks of the tail when it does not (R136, R211). -/
theorem blocks_tail_of_gt {buf : List Byte} {len : BitVec 61} (h : buf.length = len.toNat % 64) (h56 : 56 ≤ buf.length) :
    blocks (tail buf len) = [buf ++ [0x80] ++ List.replicate (63 - buf.length) 0,
      List.replicate 56 0 ++ be64Bytes (bitLength len)] := by
  have hz : padZeros len.toNat = (63 - buf.length) + 56 := by rw [padZeros_of_gt (by omega)]; omega
  have ht : tail buf len = (buf ++ [0x80] ++ List.replicate (63 - buf.length) 0) ++
      (List.replicate 56 0 ++ be64Bytes (bitLength len)) := by
    unfold tail zeros
    rw [hz, List.replicate_add]
    simp only [List.append_assoc]
  rw [ht, blocks_append (by simp; omega), blocks_single (by simp; omega), blocks_single (by simp)]
  rfl

/-! ### Scheduler -/

theorem extendSchedule_length (n : Nat) (w : List Word) : (extendSchedule n w).length = w.length + n := by
  induction n generalizing w with
  | zero => rfl
  | succ n ih => rw [extendSchedule, ih]; simp; omega

/-- The words already there stay. -/
theorem extendSchedule_getD {n : Nat} {w : List Word} {t : Nat} (ht : t < w.length) :
    (extendSchedule n w).getD t 0 = w.getD t 0 := by
  induction n generalizing w with
  | zero => rfl
  | succ n ih =>
    rw [extendSchedule, ih (by simp; omega)]
    simp [List.getD_eq_getElem?_getD, List.getElem?_append_left ht]

/-! ### Response -/

@[simp] theorem respWord_status (st : Status) (ph : Phase) (d : Option HashState) :
    Response.statusField ⟨respWord st ph, d⟩ = st.code := by
  change BitVec.extractLsb' 0 4 (respWord st ph) = st.code
  cases st <;> cases ph <;> decide

@[simp] theorem respWord_phase (st : Status) (ph : Phase) (d : Option HashState) :
    Response.phaseField ⟨respWord st ph, d⟩ = ph.code := by
  change BitVec.extractLsb' 4 2 (respWord st ph) = ph.code
  cases st <;> cases ph <;> decide

@[simp] theorem respWord_zero (st : Status) (ph : Phase) (d : Option HashState) :
    Response.zeroField ⟨respWord st ph, d⟩ = 0 := by
  change BitVec.extractLsb' 6 26 (respWord st ph) = 0
  cases st <;> cases ph <;> decide

end Sys2Proof.Machine
end

