-- ==== Sys2Proof/Laws/Decode.lean ====
section
/-! SUPPORT. The lanes of an assembled word, and the decoder's one spec lemma: which beats decode to which command. -/

namespace Sys2Proof

theorem be32_toNat (a b c d : Byte) :
    (be32 a b c d).toNat = a.toNat * 2 ^ 24 + b.toNat * 2 ^ 16 + c.toNat * 2 ^ 8 + d.toNat := by
  unfold be32
  rw [BitVec.toNat_ofNat]
  omega

@[simp] theorem be32_lane0 (a b c d : Byte) : (be32 a b c d).extractLsb' 24 8 = a := by
  apply BitVec.eq_of_toNat_eq
  rw [BitVec.extractLsb'_toNat, be32_toNat, Nat.shiftRight_eq_div_pow]
  omega

@[simp] theorem be32_lane1 (a b c d : Byte) : (be32 a b c d).extractLsb' 16 8 = b := by
  apply BitVec.eq_of_toNat_eq
  rw [BitVec.extractLsb'_toNat, be32_toNat, Nat.shiftRight_eq_div_pow]
  omega

@[simp] theorem be32_lane2 (a b c d : Byte) : (be32 a b c d).extractLsb' 8 8 = c := by
  apply BitVec.eq_of_toNat_eq
  rw [BitVec.extractLsb'_toNat, be32_toNat, Nat.shiftRight_eq_div_pow]
  omega

@[simp] theorem be32_lane3 (a b c d : Byte) : (be32 a b c d).extractLsb' 0 8 = d := by
  apply BitVec.eq_of_toNat_eq
  rw [BitVec.extractLsb'_toNat, be32_toNat, Nat.shiftRight_eq_div_pow]
  omega

/-- The three fields make up the CMD word (R71). -/
theorem Beat.cmd_eq_fields (b : Beat) :
    b.cmd = BitVec.ofNat 32 (b.rsvd.toNat * 128 + b.nb.toNat * 16 + b.op.toNat) := by
  apply BitVec.eq_of_toNat_eq
  simp only [Beat.rsvd, Beat.nb, Beat.op, BitVec.extractLsb'_toNat, Nat.shiftRight_eq_div_pow, BitVec.toNat_ofNat]
  omega

/-- Which beats decode to which command (R72 to R76). -/
theorem decode_ok_iff (b : Beat) (i : Instr) : decode b = .ok i ↔
    (b.cmd = 0x00000001 ∧ i = .init) ∨ (b.cmd = 0x00000002 ∧ i = .update0) ∨
    (b.cmd = 0x00000012 ∧ i = .update1 b.lane0) ∨ (b.cmd = 0x00000022 ∧ i = .update2 b.lane0 b.lane1) ∨
    (b.cmd = 0x00000032 ∧ i = .update3 b.lane0 b.lane1 b.lane2) ∨
    (b.cmd = 0x00000042 ∧ i = .update4 b.lane0 b.lane1 b.lane2 b.lane3) ∨ (b.cmd = 0x00000003 ∧ i = .finalize) := by
  constructor
  · intro h
    have hf := b.cmd_eq_fields
    unfold decode decodeUpdate at h
    by_cases hr : b.rsvd = 0
    · simp only [hr, ne_eq, not_true_eq_false, if_false] at h
      repeat' split at h
      all_goals first
        | cases h
          done
        | injection h with h
          subst h
          simp_all
    · rw [if_pos hr] at h
      cases h
  · obtain ⟨c, d⟩ := b
    rintro (⟨h, rfl⟩ | ⟨h, rfl⟩ | ⟨h, rfl⟩ | ⟨h, rfl⟩ | ⟨h, rfl⟩ | ⟨h, rfl⟩ | ⟨h, rfl⟩) <;> simp only [] at h <;>
      subst h <;> simp [decode, decodeUpdate, Beat.op, Beat.nb, Beat.rsvd]

/-- A command carries at most four bytes (R72). -/
theorem Instr.bytes_length_le (i : Instr) : i.bytes.length ≤ 4 := by
  cases i <;> simp [Instr.bytes]

end Sys2Proof
end

