-- ==== Sys2Proof/Laws/State.lean ====
section
/-! SUPPORT. One lemma for each field of the state and each update of it, so that no proof unfolds a record update. -/

namespace Sys2Proof.Machine

@[simp] theorem respond_hash (st : Status) (dg : Option HashState) (s : State) : (respond st dg s).hash = s.hash := rfl
@[simp] theorem respond_phase (st : Status) (dg : Option HashState) (s : State) : (respond st dg s).phase = s.phase := rfl
@[simp] theorem respond_buf (st : Status) (dg : Option HashState) (s : State) : (respond st dg s).buf = s.buf := rfl
@[simp] theorem respond_len (st : Status) (dg : Option HashState) (s : State) : (respond st dg s).len = s.len := rfl
@[simp] theorem respond_pending (st : Status) (dg : Option HashState) (s : State) : (respond st dg s).pending = s.pending := rfl
@[simp] theorem respond_responses (st : Status) (dg : Option HashState) (s : State) : (respond st dg s).responses = s.responses ++ [⟨respWord st s.phase, dg⟩] := rfl

@[simp] theorem raiseError_hash (st : Status) (s : State) : (raiseError st s).hash = s.hash := rfl
@[simp] theorem raiseError_phase (st : Status) (s : State) : (raiseError st s).phase = s.phase := rfl
@[simp] theorem raiseError_buf (st : Status) (s : State) : (raiseError st s).buf = s.buf := rfl
@[simp] theorem raiseError_len (st : Status) (s : State) : (raiseError st s).len = s.len := rfl
@[simp] theorem raiseError_pending (st : Status) (s : State) : (raiseError st s).pending = s.pending := rfl
@[simp] theorem raiseError_responses (st : Status) (s : State) : (raiseError st s).responses = s.responses ++ [⟨respWord st s.phase, none⟩] := rfl

@[simp] theorem startMessage_hash (s : State) : (startMessage s).hash = iv := rfl
@[simp] theorem startMessage_phase (s : State) : (startMessage s).phase = .initialized := rfl
@[simp] theorem startMessage_buf (s : State) : (startMessage s).buf = [] := rfl
@[simp] theorem startMessage_len (s : State) : (startMessage s).len = 0 := rfl
@[simp] theorem startMessage_pending (s : State) : (startMessage s).pending = s.pending := rfl
@[simp] theorem startMessage_responses (s : State) : (startMessage s).responses = s.responses := rfl

@[simp] theorem storeByte_hash (b : Byte) (s : State) : (storeByte b s).hash = s.hash := rfl
@[simp] theorem storeByte_phase (b : Byte) (s : State) : (storeByte b s).phase = s.phase := rfl
@[simp] theorem storeByte_buf (b : Byte) (s : State) : (storeByte b s).buf = s.buf ++ [b] := rfl
@[simp] theorem storeByte_len (b : Byte) (s : State) : (storeByte b s).len = s.len + 1 := rfl
@[simp] theorem storeByte_pending (b : Byte) (s : State) : (storeByte b s).pending = s.pending := rfl
@[simp] theorem storeByte_responses (b : Byte) (s : State) : (storeByte b s).responses = s.responses := rfl

@[simp] theorem writeBlock_hash (h : HashState) (s : State) : (writeBlock h s).hash = h := rfl
@[simp] theorem writeBlock_phase (h : HashState) (s : State) : (writeBlock h s).phase = .processing := rfl
@[simp] theorem writeBlock_buf (h : HashState) (s : State) : (writeBlock h s).buf = [] := rfl
@[simp] theorem writeBlock_len (h : HashState) (s : State) : (writeBlock h s).len = s.len := rfl
@[simp] theorem writeBlock_pending (h : HashState) (s : State) : (writeBlock h s).pending = s.pending := rfl
@[simp] theorem writeBlock_responses (h : HashState) (s : State) : (writeBlock h s).responses = s.responses := rfl

@[simp] theorem compressBuffer_hash (s : State) : (compressBuffer s).hash = processBlock s.hash s.buf := writeBlock_hash _ s
@[simp] theorem compressBuffer_phase (s : State) : (compressBuffer s).phase = .processing := writeBlock_phase _ s
@[simp] theorem compressBuffer_buf (s : State) : (compressBuffer s).buf = [] := writeBlock_buf _ s
@[simp] theorem compressBuffer_len (s : State) : (compressBuffer s).len = s.len := writeBlock_len _ s
@[simp] theorem compressBuffer_pending (s : State) : (compressBuffer s).pending = s.pending := writeBlock_pending _ s
@[simp] theorem compressBuffer_responses (s : State) : (compressBuffer s).responses = s.responses := writeBlock_responses _ s

@[simp] theorem closeMessage_hash (h : HashState) (s : State) : (closeMessage h s).hash = h := rfl
@[simp] theorem closeMessage_phase (h : HashState) (s : State) : (closeMessage h s).phase = .finalized := rfl
@[simp] theorem closeMessage_buf (h : HashState) (s : State) : (closeMessage h s).buf = [] := rfl
@[simp] theorem closeMessage_len (h : HashState) (s : State) : (closeMessage h s).len = s.len := rfl
@[simp] theorem closeMessage_pending (h : HashState) (s : State) : (closeMessage h s).pending = s.pending := rfl
@[simp] theorem closeMessage_responses (h : HashState) (s : State) : (closeMessage h s).responses = s.responses := rfl

@[simp] theorem State.send_hash (b : Beat) (s : State) : (s.send b).hash = s.hash := rfl
@[simp] theorem State.send_phase (b : Beat) (s : State) : (s.send b).phase = s.phase := rfl
@[simp] theorem State.send_buf (b : Beat) (s : State) : (s.send b).buf = s.buf := rfl
@[simp] theorem State.send_len (b : Beat) (s : State) : (s.send b).len = s.len := rfl
@[simp] theorem State.send_pending (b : Beat) (s : State) : (s.send b).pending = s.pending ++ [b] := rfl
@[simp] theorem State.send_responses (b : Beat) (s : State) : (s.send b).responses = s.responses := rfl

@[simp] theorem State.sendAll_hash (bs : List Beat) (s : State) : (s.sendAll bs).hash = s.hash := rfl
@[simp] theorem State.sendAll_phase (bs : List Beat) (s : State) : (s.sendAll bs).phase = s.phase := rfl
@[simp] theorem State.sendAll_buf (bs : List Beat) (s : State) : (s.sendAll bs).buf = s.buf := rfl
@[simp] theorem State.sendAll_len (bs : List Beat) (s : State) : (s.sendAll bs).len = s.len := rfl
@[simp] theorem State.sendAll_pending (bs : List Beat) (s : State) : (s.sendAll bs).pending = s.pending ++ bs := rfl
@[simp] theorem State.sendAll_responses (bs : List Beat) (s : State) : (s.sendAll bs).responses = s.responses := rfl

@[simp] theorem State.receive_hash (s : State) : (s.receive).hash = s.hash := rfl
@[simp] theorem State.receive_phase (s : State) : (s.receive).phase = s.phase := rfl
@[simp] theorem State.receive_buf (s : State) : (s.receive).buf = s.buf := rfl
@[simp] theorem State.receive_len (s : State) : (s.receive).len = s.len := rfl
@[simp] theorem State.receive_pending (s : State) : (s.receive).pending = s.pending := rfl
@[simp] theorem State.receive_responses (s : State) : (s.receive).responses = s.responses.tail := rfl

@[simp] theorem State.withFetchWord_hash (nbits w : Nat) (s : State) : (s.withFetchWord nbits w).hash = s.hash := rfl
@[simp] theorem State.withFetchWord_phase (nbits w : Nat) (s : State) : (s.withFetchWord nbits w).phase = s.phase := rfl
@[simp] theorem State.withFetchWord_buf (nbits w : Nat) (s : State) : (s.withFetchWord nbits w).buf = s.buf := rfl
@[simp] theorem State.withFetchWord_len (nbits w : Nat) (s : State) : (s.withFetchWord nbits w).len = s.len := rfl
@[simp] theorem State.withFetchWord_pending (nbits w : Nat) (s : State) : (s.withFetchWord nbits w).pending = Beat.ofTableWord nbits w :: s.pending := rfl
@[simp] theorem State.withFetchWord_responses (nbits w : Nat) (s : State) : (s.withFetchWord nbits w).responses = s.responses := rfl

end Sys2Proof.Machine
end

