-- ==== Sys2Proof/Laws/Ops.lean ====
section
/-! SUPPORT. For each shared operation what it can do, once: its cases, the fields it leaves alone, and what it does to the length
counter and the buffer. Proofs cite these lemmas and do not unfold the operations. -/

namespace Sys2Proof.Machine

/-! ### UPDATE's loop -/

/-- A byte that does not fill the block is only stored. -/
theorem takeByte_of_ne {s : State} {b : Byte} (h : s.buf.length + 1 ≠ 64) : takeByte s b = storeByte b s := by
  simp [takeByte, Config.blockBytes, h]

/-- The byte that fills the block compresses it. -/
theorem takeByte_of_eq {s : State} {b : Byte} (h : s.buf.length + 1 = 64) :
    takeByte s b = compressBuffer (storeByte b s) := by
  simp [takeByte, Config.blockBytes, h]

@[simp] theorem takeByte_pending (s : State) (b : Byte) : (takeByte s b).pending = s.pending := by
  unfold takeByte; split <;> simp

@[simp] theorem takeByte_responses (s : State) (b : Byte) : (takeByte s b).responses = s.responses := by
  unfold takeByte; split <;> simp

@[simp] theorem takeByte_len (s : State) (b : Byte) : (takeByte s b).len = s.len + 1 := by
  unfold takeByte; split <;> simp

@[simp] theorem takeBytes_nil (s : State) : takeBytes [] s = s := rfl

@[simp] theorem takeBytes_cons (b : Byte) (bs : List Byte) (s : State) :
    takeBytes (b :: bs) s = takeBytes bs (takeByte s b) := rfl

/-- Two runs of bytes taken one after the other are their concatenation taken at once. -/
theorem takeBytes_append (xs ys : List Byte) (s : State) :
    takeBytes (xs ++ ys) s = takeBytes ys (takeBytes xs s) := by
  simp [takeBytes, List.foldl_append]

@[simp] theorem takeBytes_pending (bs : List Byte) (s : State) : (takeBytes bs s).pending = s.pending := by
  induction bs generalizing s with
  | nil => rfl
  | cons b bs ih => simp [ih]

@[simp] theorem takeBytes_responses (bs : List Byte) (s : State) : (takeBytes bs s).responses = s.responses := by
  induction bs generalizing s with
  | nil => rfl
  | cons b bs ih => simp [ih]

theorem takeBytes_len (bs : List Byte) (s : State) :
    (takeBytes bs s).len = s.len + BitVec.ofNat 61 bs.length := by
  induction bs generalizing s with
  | nil => simp
  | cons b bs ih =>
    rw [takeBytes_cons, ih, takeByte_len, List.length_cons, BitVec.add_assoc]
    congr 1
    apply BitVec.eq_of_toNat_eq
    simp [Nat.add_comm]

/-- While the bytes fit under the limit the counter does not wrap (R138, R233). -/
theorem takeBytes_len_toNat {bs : List Byte} {s : State} (h : s.len.toNat + bs.length ≤ Config.lenMax) :
    (takeBytes bs s).len.toNat = s.len.toNat + bs.length := by
  rw [takeBytes_len, BitVec.toNat_add, BitVec.toNat_ofNat]
  unfold Config.lenMax at h
  omega

/-- Bytes that leave the block unfilled are appended, and nothing else happens to the message. -/
theorem takeBytes_of_short {bs : List Byte} {s : State} (h : s.buf.length + bs.length < 64) :
    takeBytes bs s = { s with buf := s.buf ++ bs, len := s.len + BitVec.ofNat 61 bs.length } := by
  induction bs generalizing s with
  | nil => simp
  | cons b bs ih =>
    simp only [List.length_cons] at h
    have hl := takeBytes_len (b :: bs) s
    rw [takeBytes_cons, takeByte_of_ne (by omega), ih (by simp; omega)] at hl ⊢
    simp only [State.mk.injEq, storeByte_hash, storeByte_phase, storeByte_buf, storeByte_pending, storeByte_responses]
    simpa using hl

/-- Bytes that bring the fill to 64, at most one block's worth: the block is compressed, the rest is buffered (R204, R205). -/
theorem takeBytes_of_cross {bs : List Byte} {s : State} (hb : s.buf.length ≤ 63) (h : 64 ≤ s.buf.length + bs.length)
    (h2 : s.buf.length + bs.length < 128) :
    (takeBytes bs s).buf = (s.buf ++ bs).drop 64 ∧
    (takeBytes bs s).hash = processBlock s.hash ((s.buf ++ bs).take 64) ∧ (takeBytes bs s).phase = .processing := by
  induction bs generalizing s with
  | nil => simp only [List.length_nil] at h; omega
  | cons b bs ih =>
    simp only [List.length_cons] at h h2
    rw [takeBytes_cons]
    by_cases hf : s.buf.length + 1 = 64
    · have e : s.buf ++ b :: bs = (s.buf ++ [b]) ++ bs := by simp
      rw [takeByte_of_eq hf, takeBytes_of_short (by simp; omega), e, List.drop_left' (by simp; omega),
        List.take_left' (by simp; omega)]
      simp
    · rw [takeByte_of_ne hf]
      simpa using ih (s := storeByte b s) (by simp; omega) (by simp; omega) (by simp; omega)

/-- The phase stays or becomes Processing (R205). -/
theorem takeBytes_phase (bs : List Byte) (s : State) :
    (takeBytes bs s).phase = s.phase ∨ (takeBytes bs s).phase = .processing := by
  induction bs generalizing s with
  | nil => exact .inl rfl
  | cons b bs ih =>
    rw [takeBytes_cons]
    rcases ih (takeByte s b) with e | e
    · rw [e]
      unfold takeByte
      split
      · exact .inr (compressBuffer_phase _)
      · exact .inl (storeByte_phase _ _)
    · exact .inr e

/-! ### UPDATE -/

/-- Everything UPDATE can do (R202): one of its two errors, or the bytes taken and OK. -/
theorem appendBytes_cases (bs : List Byte) (s : State) :
    (s.phase = .finalized ∧ appendBytes bs s = .next (raiseError .useAfterFinalize s)) ∨
    (s.phase ≠ .finalized ∧ Config.lenMax < s.len.toNat + bs.length ∧
      appendBytes bs s = .next (raiseError .lengthOverflow s)) ∨
    (s.phase ≠ .finalized ∧ s.len.toNat + bs.length ≤ Config.lenMax ∧
      appendBytes bs s = .next (respond .ok none (takeBytes bs s))) := by
  unfold appendBytes
  by_cases hp : s.phase = .finalized
  · simp [hp]
  · by_cases hl : Config.lenMax < s.len.toNat + bs.length
    · simp [hp, hl]
    · simp [hp, hl, Nat.le_of_not_lt hl]

/-- UPDATE of any width is `appendBytes` of its bytes. -/
theorem exec_update {i : Instr} (hi : i.isUpdate = true) (s : State) : exec i s = appendBytes i.bytes s := by
  cases i with
  | init => simp [Instr.isUpdate] at hi
  | finalize => simp [Instr.isUpdate] at hi
  | update0 => rfl
  | update1 b0 => rfl
  | update2 b0 b1 => rfl
  | update3 b0 b1 b2 => rfl
  | update4 b0 b1 b2 b3 => rfl

/-! ### FINALIZE -/

/-- Everything FINALIZE can do (R210): its error, the internal invariant breach of R152, or the digest. -/
theorem finishMessage_cases (s : State) :
    (s.phase = .finalized ∧ finishMessage s = .next (raiseError .useAfterFinalize s)) ∨
    (s.phase ≠ .finalized ∧ (tail s.buf s.len).length % 64 ≠ 0 ∧ finishMessage s = .fault .partialBlock) ∨
    (s.phase ≠ .finalized ∧ (tail s.buf s.len).length % 64 = 0 ∧
      finishMessage s = .next (respond .ok (some (processBlocks s.hash (blocks (tail s.buf s.len))))
        (closeMessage (processBlocks s.hash (blocks (tail s.buf s.len))) s))) := by
  unfold finishMessage segmentBlocks
  by_cases hp : s.phase = .finalized
  · simp [hp]
  · by_cases hl : (tail s.buf s.len).length % 64 = 0
    · simp [hp, hl, Config.blockBytes]
    · simp [hp, hl, Config.blockBytes]

/-! ### The command and the step -/

/-- A command is INIT, an UPDATE of some width, or FINALIZE. -/
theorem instr_cases (i : Instr) : i = .init ∨ i.isUpdate = true ∨ i = .finalize := by
  cases i <;> simp [Instr.isUpdate]

/-- Everything a step can do (R195): idle, the decoded command, or IllegalCommand. -/
theorem step_cases (s : State) :
    (s.pending = [] ∧ step s = .next s) ∨
    (∃ b rest i, s.pending = b :: rest ∧ decode b = .ok i ∧ step s = exec i { s with pending := rest }) ∨
    (∃ b rest why, s.pending = b :: rest ∧ decode b = .error why ∧
      step s = .next (raiseError .illegalCommand { s with pending := rest })) := by
  unfold step acceptBeat
  cases hp : s.pending with
  | nil => simp [idle]
  | cons b rest =>
    cases hd : decode b with
    | ok i => simp [hd]
    | error why => simp [hd, rejectIllegal]

/-- A step with a legal beat at the head of the channel. -/
theorem step_of_ok {s : State} {b : Beat} {rest : List Beat} {i : Instr} (hp : s.pending = b :: rest)
    (hd : decode b = .ok i) : step s = exec i { s with pending := rest } := by
  simp [step, acceptBeat, hp, hd]

/-- A step with an illegal beat at the head of the channel. -/
theorem step_of_error {s : State} {b : Beat} {rest : List Beat} {why : Illegal} (hp : s.pending = b :: rest)
    (hd : decode b = .error why) : step s = .next (raiseError .illegalCommand { s with pending := rest }) := by
  simp [step, acceptBeat, hp, hd, rejectIllegal]

end Sys2Proof.Machine
end

