-- ==== Sys2Proof/Laws/PerInstr.lean ====
section
/-! SUPPORT. Statements about every command as syntax, one lemma for each constructor. -/

namespace Sys2Proof.Laws.EncodedFields

/-- The encoded beat has RSVD 0, NB the number of message bytes, and the command is well-formed (R71, R72). -/
def Statement (i : Instr) : Prop :=
  (encode i).rsvd = 0 ∧ (encode i).nb.toNat = i.bytes.length ∧ i.wellFormed = true

theorem init : Statement .init := by
  simp [Statement, encode, Beat.rsvd, Beat.nb, Instr.bytes, Instr.wellFormed, Config.dataLanes]

theorem update0 : Statement .update0 := by
  simp [Statement, encode, Beat.rsvd, Beat.nb, Instr.bytes, Instr.wellFormed, Config.dataLanes]

theorem update1 (b0 : Byte) : Statement (.update1 b0) := by
  simp [Statement, encode, Beat.rsvd, Beat.nb, Instr.bytes, Instr.wellFormed, Config.dataLanes]

theorem update2 (b0 b1 : Byte) : Statement (.update2 b0 b1) := by
  simp [Statement, encode, Beat.rsvd, Beat.nb, Instr.bytes, Instr.wellFormed, Config.dataLanes]

theorem update3 (b0 b1 b2 : Byte) : Statement (.update3 b0 b1 b2) := by
  simp [Statement, encode, Beat.rsvd, Beat.nb, Instr.bytes, Instr.wellFormed, Config.dataLanes]

theorem update4 (b0 b1 b2 b3 : Byte) : Statement (.update4 b0 b1 b2 b3) := by
  simp [Statement, encode, Beat.rsvd, Beat.nb, Instr.bytes, Instr.wellFormed, Config.dataLanes]

theorem finalize : Statement .finalize := by
  simp [Statement, encode, Beat.rsvd, Beat.nb, Instr.bytes, Instr.wellFormed, Config.dataLanes]

end Sys2Proof.Laws.EncodedFields
end

