-- ==== Sys2Proof/Tests/Slice0.lean ====
section
/-! SUPPORT. The model's own tests. Every expected value is copied from the spec (95_test_vectors.md, or the example of the rule that
the docstring names), never from the model. At the end a witness for every obligation that has hypotheses: a concrete state and
operands that meet all of them together, at a boundary where there is one. -/

namespace Sys2Proof.Tests

open Sys2Proof Sys2Proof.Machine

/-! ### Helpers -/

/-- The next state of an outcome, if there is one. -/
def nextOf (o : Host.Outcome State Fault Refusal) : Option State :=
  match o with
  | .next t => some t
  | .fault _ => none
  | .refused _ => none

/-- A state with H = IV and empty channels. -/
def message (phase : Phase) (buf : List Byte) (len : BitVec 61) : State :=
  { State.reset with phase := phase, buf := buf, len := len }

/-- LEN_MAX = 2^61 − 1, all ones (R7). -/
def lenMaxWord : BitVec 61 := 0x1fffffffffffffff

/-- The start state of V10: Processing, L = LEN_MAX − 2, fill 61. -/
def nearlyFull : State := message .processing (zeros 61) 0x1ffffffffffffffd

/-- The end state of V11: Processing, L = LEN_MAX, fill 63. -/
def full : State := message .processing (zeros 63) lenMaxWord

/-- A finalized engine. -/
def done : State := message .finalized [] 3

/-- The bytes of an ASCII text. -/
def ascii (s : String) : List Byte := s.toList.map fun c => BitVec.ofNat 8 c.toNat

/-- The 56-byte message of program P3. -/
def message56 : List Byte := ascii "abcdbcdecdefdefgefghfghighijhijkijkljklmklmnlmnomnopnopq"

/-- The block of "abc" as words (95_test_vectors.md 2.3). -/
def abcWords : List Word := [0x61626380] ++ List.replicate 14 0 ++ [0x00000018]

/-- What the host reads of the last response: RESP, then the digest words. -/
def lastWords (o : Host.Outcome State Fault Refusal) : Option (List Word) :=
  (nextOf o).bind fun t => t.responses.getLast?.map Response.words

/-! ### WellFormed: each check refuses an ill-formed term -/

/-- R83: nb > 4 is refused. -/
theorem test_wellFormed_refuses_nb5 : (Asm.updateWord 5 0).wellFormed = false ∧ assemble (.updateWord 5 0) = none := by decide

/-- R83: a string of five bytes is refused. -/
theorem test_wellFormed_refuses_string5 :
    (Asm.updateString [1, 2, 3, 4, 5]).wellFormed = false ∧ assemble (.updateString [1, 2, 3, 4, 5]) = none := by decide

/-- R72: no command carries more than four bytes, so `Instr` has no ill-formed term; the widest one is well-formed. -/
theorem test_wellFormed_instr : (Instr.update4 1 2 3 4).wellFormed = true := by decide

/-- R8: N_ENGINES = 0 is refused. -/
theorem test_wellFormed_params : (Config.Params.mk 0 0).legal = false ∧ (Config.Params.mk 1 0).legal = true := by decide

/-! ### Decoding: words written out from the encodings (RSVD NB OP), 95_test_vectors.md 2.5 -/

theorem test_decode_init : decode ⟨0b0000000000000000000000000_000_0001, 0xdeadbeef⟩ = .ok .init := by decide

theorem test_decode_update0 : decode ⟨0b0000000000000000000000000_000_0010, 0xdeadbeef⟩ = .ok .update0 := by decide

theorem test_decode_update1 : decode ⟨0b0000000000000000000000000_001_0010, 0x61ffffff⟩ = .ok (.update1 0x61) := by decide

theorem test_decode_update2 : decode ⟨0b0000000000000000000000000_010_0010, 0x62630000⟩ = .ok (.update2 0x62 0x63) := by decide

theorem test_decode_update3 : decode ⟨0b0000000000000000000000000_011_0010, 0x616263ff⟩ = .ok (.update3 0x61 0x62 0x63) := by decide

theorem test_decode_update4 :
    decode ⟨0b0000000000000000000000000_100_0010, 0x41424344⟩ = .ok (.update4 0x41 0x42 0x43 0x44) := by decide

theorem test_decode_finalize : decode ⟨0b0000000000000000000000000_000_0011, 0xdeadbeef⟩ = .ok .finalize := by decide

/-- The illegal rows of the table: reserved OP, INIT and FINALIZE with NB, UPDATE with NB 5 to 7, RSVD bits. -/
theorem test_decode_illegal :
    [(0x00000000 : Word), 0x00000004, 0x0000000f, 0x00000011, 0x00000013, 0x00000052, 0x00000062, 0x00000072, 0x00000080,
      0x80000002, 0x00000102, 0x0000ff01].map (fun c => decode ⟨c, 0⟩) =
    [.error .reservedOpcode, .error .reservedOpcode, .error .reservedOpcode, .error .byteCountNotZero,
      .error .byteCountNotZero, .error .byteCountTooLarge, .error .byteCountTooLarge, .error .byteCountTooLarge,
      .error .reservedBits, .error .reservedBits, .error .reservedBits, .error .reservedBits] := by decide

/-- The encoder writes the words of R73, R74, R76 and zero in the ignored lanes (R83). -/
theorem test_encode_words :
    [Instr.init, .update0, .update1 0x61, .update2 0x62 0x63, .update3 0x61 0x62 0x63, .update4 0x41 0x42 0x43 0x44,
      .finalize].map encode =
    [⟨0x00000001, 0⟩, ⟨0x00000002, 0⟩, ⟨0x00000012, 0x61000000⟩, ⟨0x00000022, 0x62630000⟩, ⟨0x00000032, 0x61626300⟩,
      ⟨0x00000042, 0x41424344⟩, ⟨0x00000003, 0⟩] := by decide

/-- The table word: CMD is the first word, DATA the second; a row of 32 bits leaves DATA zero. -/
theorem test_decodeTableWord :
    decodeTableWord 32 0x00000042 = some (.update4 0 0 0 0) ∧
    decodeTableWord 64 0x6162630000000032 = some (.update3 0x61 0x62 0x63) ∧
    decodeTableWord 32 0xff00000042 = some (.update4 0 0 0 0) ∧ decodeTableWord 32 0x00000052 = none := by decide

/-! ### INIT -/

/-- V9: in Finalized, INIT answers 00000000 and gives Initialized, H = IV, L 0, fill 0. -/
theorem test_init_after_finalized : nextOf (exec .init { done with hash := ⟨1, 2, 3, 4, 5, 6, 7, 8⟩ }) =
    some { State.reset with responses := [⟨0x00000000, none⟩] } := by decide

/-- R200: in Processing, INIT discards the message in progress with no error. -/
theorem test_init_discards : nextOf (exec .init full) = some { State.reset with responses := [⟨0x00000000, none⟩] } := by decide

/-! ### UPDATE -/

/-- V13: with L = LEN_MAX the empty update fits, RESP 00000010, and nothing changes. -/
theorem test_update0_at_the_limit : nextOf (exec .update0 full) = some { full with responses := [⟨0x00000010, none⟩] } := by decide

/-- V5: in Finalized the empty update is UseAfterFinalize, RESP 00000021. -/
theorem test_update0_after_finalize : nextOf (exec .update0 done) = some { done with responses := [⟨0x00000021, none⟩] } := by decide

/-- V12: at L = LEN_MAX one byte is LengthOverflow, RESP 00000012. -/
theorem test_update1_overflow : nextOf (exec (.update1 0x01) full) = some { full with responses := [⟨0x00000012, none⟩] } := by decide

/-- V15: UseAfterFinalize wins over LengthOverflow, RESP 00000021. -/
theorem test_update1_priority : nextOf (exec (.update1 0x01) (message .finalized [] lenMaxWord)) =
    some { message .finalized [] lenMaxWord with responses := [⟨0x00000021, none⟩] } := by decide

/-- V11: two bytes take L to LEN_MAX and the fill to 63, RESP 00000010. -/
theorem test_update2_to_the_limit : nextOf (exec (.update2 0x01 0x02) nearlyFull) =
    some { nearlyFull with buf := zeros 61 ++ [0x01, 0x02], len := lenMaxWord, responses := [⟨0x00000010, none⟩] } := by decide

/-- P2, beat 4: "bc" after "a". -/
theorem test_update2_appends : nextOf (exec (.update2 0x62 0x63) (message .initialized [0x61] 1)) =
    some { message .initialized [0x61, 0x62, 0x63] 3 with responses := [⟨0x00000000, none⟩] } := by decide

/-- V2: "abc" after reset, RESP 00000000, H still the IV. -/
theorem test_update3_abc : nextOf (exec (.update3 0x61 0x62 0x63) State.reset) =
    some { message .initialized [0x61, 0x62, 0x63] 3 with responses := [⟨0x00000000, none⟩] } := by decide

/-- V10: three bytes would exceed LEN_MAX, RESP 00000012, no byte taken. -/
theorem test_update3_overflow : nextOf (exec (.update3 0x01 0x02 0x03) nearlyFull) =
    some { nearlyFull with responses := [⟨0x00000012, none⟩] } := by decide

/-- V3: at fill 62 with "ABCD": RESP 00000010, Processing, buf 43 44, L 66. -/
theorem test_update4_eager : ((nextOf (exec (.update4 0x41 0x42 0x43 0x44) (message .initialized (List.replicate 62 0x78) 62))).map
    fun t => (t.phase, t.buf, t.len, t.responses)) =
    some (.processing, [0x43, 0x44], 66, [⟨0x00000010, none⟩]) := by decide +kernel

/-- P4, beat 17: the sixteenth "aaaa" completes the block; H as printed there. -/
theorem test_update4_block : ((nextOf (exec (.update4 0x61 0x61 0x61 0x61) (message .initialized (List.replicate 60 0x61) 60))).map
    fun t => (t.hash, t.buf)) =
    some (⟨0xdf5bb81c, 0xe81e0626, 0xfb45a894, 0x4fd40f31, 0xb25e6816, 0xd6d499c1, 0xab904929, 0x00635e66⟩, []) := by
  decide +kernel

/-! ### FINALIZE -/

/-- V1, P1: from reset, RESP 00000020 and the digest of the empty message. V6: in Finalized, UseAfterFinalize, RESP 00000021, no
digest. -/
theorem test_finalize_empty_and_twice : lastWords (exec .finalize State.reset) =
    some [0x00000020, 0xe3b0c442, 0x98fc1c14, 0x9afbf4c8, 0x996fb924, 0x27ae41e4, 0x649b934c, 0xa495991b, 0x7852b855] ∧
    nextOf (exec .finalize done) = some { done with responses := [⟨0x00000021, none⟩] } := by
  decide +kernel

/-- P3, beat 15: the 56-byte message takes two blocks. -/
theorem test_finalize_two_blocks : lastWords (exec .finalize (message .initialized message56 56)) =
    some [0x00000020, 0x248d6a61, 0xd20638b8, 0xe5c02693, 0x0c3e6039, 0xa33ce459, 0x64ff2167, 0xf6ecedd4, 0x19db06c1] := by
  decide +kernel

/-! ### The step -/

/-- V7: an illegal beat in Finalized is IllegalCommand, RESP 00000023. -/
theorem test_step_illegal_in_finalized : nextOf (step { done with pending := [⟨0x00000052, 0⟩] }) =
    some { done with responses := [⟨0x00000023, none⟩] } := by decide

/-- V8: CMD 0 is no NOP; in Initialized RESP 00000003. -/
theorem test_step_cmd0 : nextOf (step { State.reset with pending := [⟨0, 0⟩] }) =
    some { State.reset with responses := [⟨0x00000003, none⟩] } := by decide

/-- R247: with an empty command channel the state stays. -/
theorem test_step_idle : nextOf (step done) = some done := by decide

/-- The table word of UPDATE with one byte, as the first command after reset. -/
theorem test_step_withFetchWord : nextOf (step (State.reset.withFetchWord 64 0x6100000000000012)) =
    some { message .initialized [0x61] 1 with responses := [⟨0x00000000, none⟩] } := by decide

/-- P2: "abc" split unevenly, with an empty update and junk lanes; the digest of source vector S2. -/
theorem test_step_finishes_abc : lastWords (step { message .initialized [0x61, 0x62, 0x63] 3 with pending := [⟨0x00000003, 0⟩] }) =
    some [0x00000020, 0xba7816bf, 0x8f01cfea, 0x414140de, 0x5dae2223, 0xb00361a3, 0x96177a9c, 0xb410ff61, 0xf20015ad] := by
  decide +kernel

/-! ### Functions, 95_test_vectors.md 2.1 -/

theorem test_smallSigma0 : [(0x80000000 : Word), 0x00000001, 0x12345678, 0xffffffff].map smallSigma0 =
    [0x11002000, 0x02004000, 0xe7fce6ee, 0x1fffffff] := by decide

theorem test_smallSigma1 : [(0x80000000 : Word), 0x00000001, 0x12345678, 0xffffffff].map smallSigma1 =
    [0x00205000, 0x0000a000, 0xa1f78649, 0x003fffff] := by decide

theorem test_bigSigma0 : [(0x80000000 : Word), 0x00000001, 0x12345678, 0x6a09e667].map bigSigma0 =
    [0x20040200, 0x40080400, 0x66146474, 0xce20b47e] := by decide

theorem test_bigSigma1 : [(0x80000000 : Word), 0x00000001, 0x12345678, 0x510e527f].map bigSigma1 =
    [0x02100040, 0x04200080, 0x3561abda, 0x3587272b] := by decide

theorem test_ch_maj : ch 0xff00ff00 0x12345678 0x9abcdef0 = 0x12bc56f0 ∧ ch 0x510e527f 0x9b05688c 0x1f83d9ab = 0x1f85c98c ∧
    maj 0xff00ff00 0x0ff00ff0 0x00ffff00 = 0x0ff0ff00 ∧ maj 0x6a09e667 0xbb67ae85 0x3c6ef372 = 0x3a6fe667 := by decide

theorem test_rotr : rotr 0x00000001 7 = 0x02000000 ∧ rotr 0x12345678 2 = 0x048d159e ∧ rotr 0x80000000 25 = 0x00000040 := by decide

/-! ### Data path -/

/-- Table 2.2: z, the padded length and the length field. -/
theorem test_pad_table : [0, 55, 56, 57, 63, 64, 65, 119, 120, 127, 128].map (fun l => (padZeros l, 64 * padBlocks l)) =
    [(55, 64), (0, 64), (63, 128), (62, 128), (56, 128), (55, 128), (54, 128), (0, 128), (63, 192), (56, 192), (55, 192)] ∧
    (pad (List.replicate 57 0x61)).drop 120 = [0x00, 0x00, 0x00, 0x00, 0x00, 0x00, 0x01, 0xc8] := by decide

/-- V14: at L = LEN_MAX, fill 63, the tail is 128 bytes and the length field fffffffffffffff8. -/
theorem test_tail_at_the_limit : (tail (zeros 63) lenMaxWord).length = 128 ∧
    (tail (zeros 63) lenMaxWord).drop 120 = [0xff, 0xff, 0xff, 0xff, 0xff, 0xff, 0xff, 0xf8] := by decide +kernel

/-- 2.3: the block of "abc", and both blocks of the 56-byte message. -/
theorem test_blocks : (blocks (pad (ascii "abc"))).map blockWords = [abcWords] ∧
    ((blocks (pad message56)).map blockWords)[1]? = some (List.replicate 15 0 ++ [0x000001c0]) := by decide +kernel

/-- R165: W[16..23] and W[63] of the "abc" block, and the same words from the sliding window (R163). -/
theorem test_schedule : ((schedule abcWords).drop 16).take 8 =
      [0x61626380, 0x000f0000, 0x7da86405, 0x600003c6, 0x3e9d7b78, 0x0183fc00, 0x12dcbfdb, 0xe2e2c38e] ∧
    (schedule abcWords)[63]? = some 0x12b1edeb ∧ windowWord abcWords 63 = 0x12b1edeb := by decide +kernel

/-- 2.3: the all-ones block. -/
theorem test_schedule_ones : ((schedule (List.replicate 16 0xffffffff)).drop 16).take 8 =
    [0x203ffffc, 0x203ffffc, 0x20099be4, 0x20099be4, 0x1e869660, 0x1e869660, 0xb9fbad33, 0xda3bad30] := by decide +kernel

/-- R184: the variables after round 0 and after round 63 of the "abc" block. -/
theorem test_rounds : compressRound (loadVars iv) 0x428a2f98 0x61626380 =
      ⟨0x5d6aebcd, 0x6a09e667, 0xbb67ae85, 0x3c6ef372, 0xfa2a4622, 0x510e527f, 0x9b05688c, 0x1f83d9ab⟩ ∧
    rounds iv (schedule abcWords) =
      ⟨0x506e3058, 0xd39a2165, 0x04d24d6c, 0xb85e2ce9, 0x5ef50f24, 0xfb121210, 0x948d25b6, 0x961f4894⟩ := by decide +kernel

/-- S2: hash("abc") as bytes, the first and the last four. -/
theorem test_oneShot_abc : (match oneShot (ascii "abc") with
    | .ok d => d.take 4 ++ d.drop 28
    | .error _ => []) = [0xba, 0x78, 0x16, 0xbf, 0xf2, 0x00, 0x15, 0xad] := by decide +kernel

/-! ### Assembler, R83 to R85 -/

/-- The lines of program P2. -/
theorem test_assembleLines : assembleLines
    ["INIT".toList, "UPDATE \"a\" ; one byte".toList, "  UPDATE 0, 0xdeadbeef".toList, "; a comment".toList,
      "UPDATE \"bc\"".toList, "FINALIZE".toList] =
    some [⟨0x00000001, 0⟩, ⟨0x00000012, 0x61000000⟩, ⟨0x00000002, 0xdeadbeef⟩, ⟨0x00000022, 0x62630000⟩, ⟨0x00000003, 0⟩] := by
  decide

/-- Refused: nb > 4, a long string, a lower-case mnemonic. -/
theorem test_assembler_refuses : [["UPDATE 5, 0x0".toList], ["UPDATE \"abcde\"".toList], ["init".toList]].map assembleLines =
    [none, none, none] := by decide

/-- R84: the first and the last beat of P3's UPDATEB, and the empty message. -/
theorem test_updateB : (updateB message56).length = 14 ∧ (updateB message56)[0]? = some ⟨0x00000042, 0x61626364⟩ ∧
    updateB (ascii "abcde") = [⟨0x00000042, 0x61626364⟩, ⟨0x00000012, 0x65000000⟩] ∧ updateB [] = [] := by decide

/-! ### Host and system -/

/-- R57, R264: two beats written early are taken in order and answered in order. -/
theorem test_runBeats : ((nextOf (runBeats [⟨0x00000012, 0x61000000⟩, ⟨0, 0⟩] State.reset)).map fun t => (t.buf, t.responses)) =
    some ([0x61], [⟨0x00000000, none⟩, ⟨0x00000003, none⟩]) := by decide

/-- R56: a response is delivered once, the oldest first. -/
theorem test_receive : (State.receive { done with responses := [⟨0x20, some iv⟩, ⟨0x21, none⟩] }).responses = [⟨0x21, none⟩] := by
  decide

/-- P5: a beat on channel 1 of two engines leaves engine 0 alone. -/
theorem test_system : (match (System.reset ⟨2, 0⟩).run [(1, .send ⟨0x00000012, 0x61000000⟩), (1, .step)] with
    | .next y => y.engines.map fun s => s.buf
    | .fault _ => []
    | .refused _ => []) = [[], [0x61]] := by decide

/-- R80, R32: what the host reads at the ports of a FINALIZE response. -/
theorem test_ports : [0, 1, 2, 3, 10, 11].map (Response.readPort ⟨0x00000020, some iv⟩) =
    [none, none, some 0x00000020, some 0x6a09e667, some 0x5be0cd19, none] := by decide

/-! ### Witnesses: concrete values that meet every hypothesis of an obligation together -/

theorem witness_DecodeOfEncodedCommand : (Instr.update4 0 0x7f 0x80 0xff).wellFormed = true := by decide

theorem witness_EncodeOfDecodedBeat : decode ⟨0x00000012, 0x61ffffff⟩ = .ok (.update1 0x61) := by decide

/-- One beat of each of the four kinds, the RSVD bit at either end. -/
theorem witness_IllegalBeatsRaiseIllegalCommand :
    (let b : Beat := ⟨0x00000004, 0⟩; b.op ≠ 1 ∧ b.op ≠ 2 ∧ b.op ≠ 3) ∧
    (let b : Beat := ⟨0x00000081, 0⟩; b.rsvd ≠ 0) ∧ (let b : Beat := ⟨0x80000002, 0⟩; b.rsvd ≠ 0) ∧
    (let b : Beat := ⟨0x00000013, 0⟩; (b.op = 1 ∨ b.op = 3) ∧ b.nb ≠ 0) ∧
    (let b : Beat := ⟨0x00000052, 0⟩; b.op = 2 ∧ 5 ≤ b.nb.toNat) ∧
    { full with pending := [⟨0x00000052, 0⟩] }.pending = ⟨0x00000052, 0⟩ :: [] := by decide

theorem witness_UpdateOperandIsFirstLanes :
    (0 ≤ 4 ∧ (⟨0x00000002, 0xffffffff⟩ : Beat).cmd = BitVec.ofNat 32 (2 + 16 * 0)) ∧
    (4 ≤ 4 ∧ (⟨0x00000042, 0xffffffff⟩ : Beat).cmd = BitVec.ofNat 32 (2 + 16 * 4)) := by decide

theorem witness_InitAndFinalizeIgnoreData : ((1 : Word) = 0x00000001 ∨ (1 : Word) = 0x00000003) ∧
    ((3 : Word) = 0x00000001 ∨ (3 : Word) = 0x00000003) := by decide

theorem witness_StepRunsTheDecodedCommand :
    ({ full with pending := [⟨0x00000002, 0⟩] }.pending = [⟨0x00000002, 0⟩] ∧ decode ⟨0x00000002, 0⟩ = .ok .update0) ∧
    ({ full with pending := [⟨0x00000000, 0⟩] }.pending = [⟨0x00000000, 0⟩] ∧ decode ⟨0x00000000, 0⟩ = .error .reservedOpcode) ∧
    full.pending = [] := by decide

/-- For StepNeverStops, StepKeepsInvariant and EveryBeatIsAnswered: states at the ends of the ranges of R25 that meet it. -/
theorem witness_Inv : State.reset.Inv ∧ (message .initialized (zeros 63) 63).Inv ∧ (message .processing [] 64).Inv ∧ full.Inv ∧
    done.Inv ∧ full.pending = [] := ⟨by decide, by decide, by decide, by decide, by decide, rfl⟩

theorem witness_StepKeepsInvariant : full.Inv ∧ step { full with pending := [⟨0x00000002, 0⟩] } =
    .next { full with responses := [⟨0x00000010, none⟩] } := ⟨by decide, rfl⟩

/-- Both sides of the equivalence occur: a state that violates R25 faults, one that meets it does not. -/
theorem witness_OnlyTheSegmenterBreachFaults : exec .finalize (message .initialized [0x61] 0) = .fault .partialBlock ∧
    (message .initialized [0x61] 0).buf.length % 64 ≠ (message .initialized [0x61] 0).len.toNat % 64 := ⟨rfl, by decide⟩

theorem witness_OneResponsePerBeat : ∃ t, { done with pending := [⟨0x00000003, 0⟩] }.pending = ⟨0x00000003, 0⟩ :: [] ∧
    step { done with pending := [⟨0x00000003, 0⟩] } = .next t := ⟨_, rfl, rfl⟩

theorem witness_StepKeepsResponsesLegal : ∃ t, State.ResponsesLegal
      { done with pending := [⟨0x00000003, 0⟩], responses := [⟨0x00000020, some iv⟩, ⟨0x00000012, none⟩] } ∧
    step { done with pending := [⟨0x00000003, 0⟩], responses := [⟨0x00000020, some iv⟩, ⟨0x00000012, none⟩] } = .next t :=
  ⟨_, by decide, rfl⟩

theorem witness_ResetState : ∃ t, exec .init full = .next t := ⟨_, rfl⟩

theorem witness_InitResult : { full with pending := [⟨0x00000001, 0xdeadbeef⟩] }.pending = ⟨0x00000001, 0xdeadbeef⟩ :: [] := rfl

/-- Fill 63 and one byte, fill 60 and three bytes, at L = LEN_MAX after the update, and the empty update at the limit. -/
theorem witness_UpdateResult :
    ((Instr.update1 0x61).isUpdate = true ∧ (message .processing (zeros 63) 0x1ffffffffffffffe).phase ≠ .finalized ∧
      (message .processing (zeros 63) 0x1ffffffffffffffe).buf.length ≤ 63 ∧
      (message .processing (zeros 63) 0x1ffffffffffffffe).len.toNat + (Instr.update1 0x61).bytes.length ≤ 2 ^ 61 - 1 ∧
      64 ≤ (message .processing (zeros 63) 0x1ffffffffffffffe).buf.length + (Instr.update1 0x61).bytes.length) ∧
    ((Instr.update3 1 2 3).isUpdate = true ∧ (message .initialized (zeros 60) 60).phase ≠ .finalized ∧
      (message .initialized (zeros 60) 60).buf.length ≤ 63 ∧
      (message .initialized (zeros 60) 60).len.toNat + (Instr.update3 1 2 3).bytes.length ≤ 2 ^ 61 - 1 ∧
      (message .initialized (zeros 60) 60).buf.length + (Instr.update3 1 2 3).bytes.length < 64) ∧
    (Instr.update0.isUpdate = true ∧ full.phase ≠ .finalized ∧ full.buf.length ≤ 63 ∧
      full.len.toNat + Instr.update0.bytes.length ≤ 2 ^ 61 - 1) := by decide

theorem witness_LengthOverflowExactly :
    ((Instr.update1 0x61).isUpdate = true ∧ full.phase ≠ .finalized ∧
      2 ^ 61 - 1 < full.len.toNat + (Instr.update1 0x61).bytes.length) ∧
    (exec (.update1 0x61) full = .next { full with responses := [⟨0x00000012, none⟩] } ∧
      Response.statusField ⟨0x00000012, none⟩ = 2) := ⟨by decide, rfl, by decide⟩

/-- Fill 55 takes one block, fill 56 two; and the longest message. -/
theorem witness_FinalizeResult :
    ((message .initialized (zeros 55) 55).phase ≠ .finalized ∧
      (message .initialized (zeros 55) 55).buf.length = (message .initialized (zeros 55) 55).len.toNat % 64) ∧
    ((message .initialized (zeros 56) 56).phase ≠ .finalized ∧
      (message .initialized (zeros 56) 56).buf.length = (message .initialized (zeros 56) 56).len.toNat % 64) ∧
    (full.phase ≠ .finalized ∧ full.buf.length = full.len.toNat % 64) := by decide

theorem witness_UseAfterFinalizeRaised : done.phase = .finalized ∧ Instr.update0.isUpdate = true ∧
    (Instr.update4 1 2 3 4).isUpdate = true ∧ Instr.finalize = .finalize := by decide

/-- For RejectedBeatChangesNoState and RetryFailsIdentically: the same overflowing beat twice. -/
theorem witness_RejectedBeatChangesNoState : ∃ (t : State) (r : Response),
    { full with pending := [⟨0x00000012, 0⟩, ⟨0x00000012, 0⟩] }.pending = ⟨0x00000012, 0⟩ :: ⟨0x00000012, 0⟩ :: [] ∧
    step { full with pending := [⟨0x00000012, 0⟩, ⟨0x00000012, 0⟩] } = .next t ∧
    t.responses = { full with pending := [⟨0x00000012, 0⟩, ⟨0x00000012, 0⟩] }.responses ++ [r] ∧ r.statusField ≠ 0 :=
  ⟨_, _, rfl, rfl, rfl, by decide⟩

/-- For ErrorPriority and PhaseTransitions: each of the four outcomes has a state and a beat. -/
theorem witness_ErrorPriority :
    ({ done with pending := [⟨0x00000052, 0⟩] }.Inv ∧ decode ⟨0x00000052, 0⟩ = .error .byteCountTooLarge) ∧
    ((message .finalized [] lenMaxWord).Inv ∧ decode ⟨0x00000012, 0⟩ = .ok (.update1 0) ∧
      (message .finalized [] lenMaxWord).phase = .finalized) ∧
    (full.Inv ∧ full.phase ≠ .finalized ∧ 2 ^ 61 - 1 < full.len.toNat + (Instr.update1 0).bytes.length) ∧
    (State.reset.Inv ∧ decode ⟨0x00000003, 0⟩ = .ok .finalize) := by decide

theorem witness_FinalizedHoldsUntilInit : done.phase = .finalized ∧
    { done with pending := [⟨0x00000003, 0⟩] }.pending = ⟨0x00000003, 0⟩ :: [] ∧ decode ⟨0x00000003, 0⟩ ≠ .ok .init ∧
    decode ⟨0x00000000, 0⟩ ≠ .ok .init ∧ { done with pending := [⟨0x00000001, 7⟩] }.pending = ⟨0x00000001, 7⟩ :: [] ∧
    decode ⟨0x00000001, 7⟩ = .ok .init := by decide

/-- CommandFrame: each kind of command has a next state, an update that does not complete the block among them. -/
theorem witness_CommandFrame : (∃ t, exec .init full = .next t) ∧ (∃ t, exec .update0 full = .next t) ∧
    (∃ t, exec (.update2 1 2) nearlyFull = .next t) ∧ (∃ t, exec .finalize done = .next t) ∧
    (Instr.update2 1 2).isUpdate = true ∧ nearlyFull.buf.length + (Instr.update2 1 2).bytes.length < 64 :=
  ⟨⟨_, rfl⟩, ⟨_, rfl⟩, ⟨_, rfl⟩, ⟨_, rfl⟩, by decide, by decide⟩

theorem witness_ReachedStatesAreSound : Reachable (State.reset.send ⟨0x00000012, 0x61000000⟩) :=
  .event (.send ⟨0x00000012, 0x61000000⟩) .reset rfl

/-- For UpdatesConcatenate and IncrementalEqualsOneShot: P2 with its trailing beat, from an arbitrary state. -/
theorem witness_IncrementalEqualsOneShot :
    { full with pending := [⟨1, 0⟩, ⟨0x12, 0x61000000⟩, ⟨0x02, 0xdeadbeef⟩, ⟨0x22, 0x62630000⟩, ⟨3, 0⟩] }.pending =
      ⟨1, 0⟩ :: [⟨0x12, 0x61000000⟩, ⟨0x02, 0xdeadbeef⟩, ⟨0x22, 0x62630000⟩] ++ ⟨3, 0⟩ :: [] ∧
    decode ⟨1, 0⟩ = .ok .init ∧
    [(⟨0x12, 0x61000000⟩ : Beat), ⟨0x02, 0xdeadbeef⟩, ⟨0x22, 0x62630000⟩].map decode =
      [Instr.update1 0x61, .update0, .update2 0x62 0x63].map .ok ∧
    (∀ i ∈ [Instr.update1 0x61, .update0, .update2 0x62 0x63], i.isUpdate = true) ∧ decode ⟨3, 0⟩ = .ok .finalize ∧
    ([Instr.update1 0x61, .update0, .update2 0x62 0x63].flatMap Instr.bytes).length ≤ 2 ^ 61 - 1 := by decide

/-- A short message, one of exactly LEN_MAX bytes, and one byte more. -/
theorem witness_HashProgramComputesHash : full.pending = [] ∧ (ascii "abc").length ≤ 2 ^ 61 - 1 ∧
    (List.replicate (2 ^ 61 - 1) (0 : Byte)).length ≤ 2 ^ 61 - 1 ∧
    2 ^ 61 - 1 < (List.replicate (2 ^ 61) (0 : Byte)).length := by
  rw [List.length_replicate, List.length_replicate]
  decide

/-- Two different states with the same beats waiting, an INIT first, and a run of two steps. -/
theorem witness_InitForgetsThePast : ∃ t, { full with pending := [⟨1, 0⟩, ⟨0x12, 0⟩] }.pending = ⟨1, 0⟩ :: [⟨0x12, 0⟩] ∧
    { done with pending := [⟨1, 0⟩, ⟨0x12, 0⟩] }.pending = ⟨1, 0⟩ :: [⟨0x12, 0⟩] ∧ decode ⟨1, 0⟩ = .ok .init ∧
    runSteps (1 + 1) { full with pending := [⟨1, 0⟩, ⟨0x12, 0⟩] } = .next t := ⟨_, rfl, rfl, by decide, rfl⟩

theorem witness_EarlyBeatIsHeld : ∃ t, { full with pending := [⟨0x00000002, 0⟩] }.pending ≠ [] ∧
    step { full with pending := [⟨0x00000002, 0⟩] } = .next t := ⟨_, by decide, rfl⟩

/-- Two interleavings of the same events of each engine, and a run of one of them. -/
theorem witness_EnginesAreIndependent :
    (∃ z, (System.reset ⟨2, 0⟩).run [(0, .send ⟨1, 0⟩), (1, .receive), (0, .step)] = .next z) ∧
    (System.reset ⟨2, 0⟩).engines[0]? = some State.reset ∧
    (∀ k, eventsOn k [(0, .send ⟨1, 0⟩), (1, .receive), (0, .step)] =
      eventsOn k [(1, .receive), (0, .send ⟨1, 0⟩), (0, .step)]) := by
  refine ⟨⟨_, rfl⟩, rfl, fun k => ?_⟩
  by_cases h0 : 0 = k
  · subst h0; rfl
  · by_cases h1 : 1 = k
    · subst h1; rfl
    · simp [eventsOn, h0, h1]

theorem witness_SystemResetAndFrame : ∃ z, 1 < (⟨2, 0⟩ : Config.Params).nEngines ∧ (System.reset ⟨2, 0⟩).wf = true ∧
    (System.reset ⟨2, 0⟩).applyEvent 1 .step = .next z := ⟨_, by decide, by decide, rfl⟩

/-- For PadLayout, PaddedLength and TailCompletesThePadding: lengths 55 and 56 mod 64. -/
theorem witness_PadLayout : ((zeros 55).length ≤ 2 ^ 61 - 1 ∧ (zeros 55).length % 64 ≤ 55) ∧
    ((zeros 56).length ≤ 2 ^ 61 - 1 ∧ 56 ≤ (zeros 56).length % 64) := by decide

theorem witness_BlockWordAssembly : (zeros 64).length = 64 := by decide

theorem witness_AlignedDataWordIsBlockWord : (zeros 60).length % 4 = 0 := by decide

theorem witness_SegmentsInOrder : (zeros 128).length % 64 = 0 ∧ (zeros 127).length % 64 ≠ 0 := by decide +kernel

/-- For ScheduleRule and WindowGivesTheSchedule. -/
theorem witness_ScheduleRule : abcWords.length = 16 := by decide

theorem witness_RoundRule : temp1 (loadVars iv) 1 2 = (loadVars iv).h + bigSigma1 (loadVars iv).e +
      ch (loadVars iv).e (loadVars iv).f (loadVars iv).g + 1 + 2 ∧
    temp2 (loadVars iv) = bigSigma0 (loadVars iv).a + maj (loadVars iv).a (loadVars iv).b (loadVars iv).c := ⟨rfl, rfl⟩

/-- The tree ((a + b) + (c + d)) + e over T1's operands in the opposite order. -/
theorem witness_AddTreeAnyOrder : (SumTree.add
      (.add (.add (.word 2) (.word 1)) (.add (.word (ch (loadVars iv).e (loadVars iv).f (loadVars iv).g))
        (.word (bigSigma1 (loadVars iv).e)))) (.word (loadVars iv).h)).words.Perm
      [(loadVars iv).h, bigSigma1 (loadVars iv).e, ch (loadVars iv).e (loadVars iv).f (loadVars iv).g, 1, 2] ∧
    (SumTree.add (.word 1) (.word 2)).words.Perm (SumTree.add (.word 2) (.word 1)).words := by decide

theorem witness_RoundsAreSerial : (schedule abcWords).length = 64 := by decide +kernel

theorem witness_BlockAccumulates : ∃ v, v = rounds iv (schedule (blockWords (zeros 64))) := ⟨_, rfl⟩

/-- For WordPrimitives, SigmaBits, ChooseAndMajorityBits and RoundFunctionLaws: both ends of the ranges. -/
theorem witness_WordPrimitives : 0 < 1 ∧ 1 < 32 ∧ 0 < 31 ∧ 31 < 32 := by decide

theorem witness_AssemblerEncodes : 4 < ([1, 2, 3, 4, 5] : List Byte).length ∧ ([1, 2, 3, 4] : List Byte).length ≤ 4 ∧
    assemble (.updateWord 0 7) = some ⟨0x00000002, 7⟩ := by decide

end Sys2Proof.Tests
end

/-! ## Proofs: the word primitives of R11 as numbers and bit by bit -/

section
namespace Sys2Proof.Machine

@[simp] theorem shr_toNat (x : Word) (n : Nat) : (shr x n).toNat = x.toNat / 2 ^ n := by
  rw [shr, BitVec.toNat_ushiftRight, Nat.shiftRight_eq_div_pow]

@[simp] theorem shr_getLsbD (x : Word) (n i : Nat) : (shr x n).getLsbD i = x.getLsbD (i + n) := by
  rw [shr, BitVec.getLsbD_ushiftRight, Nat.add_comm]

theorem rotr_toNat (x : Word) (n : Nat) :
    (rotr x n).toNat = x.toNat / 2 ^ n ||| (x.toNat * 2 ^ (32 - n)) % 2 ^ 32 := by
  rw [rotr, BitVec.toNat_or, shr_toNat, BitVec.toNat_shiftLeft, Nat.shiftLeft_eq]

/-- Of the two shifts that `rotr` joins, only one has bit i: the right shift where i + n stays below 32, the left shift where it wraps. -/
theorem rotr_getLsbD (x : Word) {n i : Nat} (hn : n < 32) (hi : i < 32) :
    (rotr x n).getLsbD i = x.getLsbD ((i + n) % 32) := by
  rw [rotr, BitVec.getLsbD_or, shr_getLsbD, BitVec.getLsbD_shiftLeft]
  by_cases h : i + n < 32
  · have hleft : i < 32 - n := by omega
    simp [hleft, Nat.mod_eq_of_lt h]
  · have hright : x.getLsbD (i + n) = false := BitVec.getLsbD_of_ge x _ (by omega)
    have hleft : ¬ i < 32 - n := by omega
    have hwrap : i - (32 - n) = (i + n) % 32 := by omega
    simp [hi, hright, hleft, hwrap]

theorem complement_eq_xor_ones (x : Word) : ~~~x = x ^^^ 0xFFFFFFFF :=
  (BitVec.xor_allOnes (x := x)).symm

/-- Settles O52: each primitive by its own law, the rotation as a number and bit by bit. -/
theorem wordPrimitives : Obligations.WordPrimitives :=
  ⟨BitVec.toNat_add, complement_eq_xor_ones, shr_toNat,
    fun x n _ _ => rotr_toNat x n,
    fun x _ _ _ hn hi => rotr_getLsbD x hn hi⟩

end Sys2Proof.Machine
end

/-! ## Proofs: what a command can do, its frame, and the ports of a response -/

section
namespace Sys2Proof.Machine

/-- Everything a command that answers a next state can have done, in the state it ran in. -/
inductive Completes (s : State) : Instr → State → Prop where
  | init : Completes s .init (respond .ok none (startMessage s))
  | useAfterFinalize {i : Instr} (hi : i.isUpdate = true ∨ i = .finalize) (hp : s.phase = .finalized) :
      Completes s i (raiseError .useAfterFinalize s)
  | lengthOverflow {i : Instr} (hi : i.isUpdate = true) (hp : s.phase ≠ .finalized)
      (hl : Config.lenMax < s.len.toNat + i.bytes.length) : Completes s i (raiseError .lengthOverflow s)
  | update {i : Instr} (hi : i.isUpdate = true) (hp : s.phase ≠ .finalized)
      (hl : s.len.toNat + i.bytes.length ≤ Config.lenMax) : Completes s i (respond .ok none (takeBytes i.bytes s))
  | finalize {h : HashState} (hp : s.phase ≠ .finalized) (ht : (tail s.buf s.len).length % 64 = 0)
      (hh : h = processBlocks s.hash (blocks (tail s.buf s.len))) :
      Completes s .finalize (respond .ok (some h) (closeMessage h s))

/-- What ties `Completes` to the model: the outcome of a command is one of its cases, or FINALIZE's breach of R152. -/
theorem exec_cases (i : Instr) (s : State) :
    (∃ t, exec i s = .next t ∧ Completes s i t) ∨
    (i = .finalize ∧ s.phase ≠ .finalized ∧ (tail s.buf s.len).length % 64 ≠ 0 ∧ exec i s = .fault .partialBlock) := by
  rcases instr_cases i with rfl | hi | rfl
  · exact .inl ⟨_, rfl, .init⟩
  · left
    rw [exec_update hi]
    rcases appendBytes_cases i.bytes s with ⟨hp, e⟩ | ⟨hp, hl, e⟩ | ⟨hp, hl, e⟩
    · exact ⟨_, e, .useAfterFinalize (.inl hi) hp⟩
    · exact ⟨_, e, .lengthOverflow hi hp hl⟩
    · exact ⟨_, e, .update hi hp hl⟩
  · rcases finishMessage_cases s with ⟨hp, e⟩ | ⟨hp, ht, e⟩ | ⟨hp, ht, e⟩
    · exact .inl ⟨_, e, .useAfterFinalize (.inr rfl) hp⟩
    · exact .inr ⟨rfl, hp, ht, e⟩
    · exact .inl ⟨_, e, .finalize hp ht rfl⟩

theorem completes_of_exec {i : Instr} {s t : State} (h : exec i s = .next t) : Completes s i t := by
  rcases exec_cases i s with ⟨u, e, hc⟩ | ⟨-, -, -, e⟩ <;> rw [e] at h <;> cases h
  exact hc

theorem takeBytes_phase_ne_finalized {s : State} (bs : List Byte) (hp : s.phase ≠ .finalized) :
    (takeBytes bs s).phase ≠ .finalized := by
  rcases takeBytes_phase bs s with e | e <;> simp [e, hp]

theorem Completes.pending_eq {i : Instr} {s t : State} (h : Completes s i t) : t.pending = s.pending := by
  cases h <;> simp

theorem Completes.responses_append {i : Instr} {s t : State} (h : Completes s i t) :
    ∃ r, t.responses = s.responses ++ [r] := by
  cases h <;> simp

/-- An UPDATE that leaves the block unfilled only buffers, whether or not it is accepted. -/
theorem Completes.hash_phase_of_short {i : Instr} {s t : State} (h : Completes s i t) (hi : i.isUpdate = true)
    (hs : s.buf.length + i.bytes.length < 64) : t.hash = s.hash ∧ t.phase = s.phase := by
  cases h with
  | init => cases hi
  | useAfterFinalize => simp
  | lengthOverflow => simp
  | update => simp [takeBytes_of_short hs]
  | finalize => cases hi

theorem Completes.phase_of_update {i : Instr} {s t : State} (h : Completes s i t) (hi : i.isUpdate = true) :
    t.phase = s.phase ∨ t.phase = .processing ∧ s.phase ≠ .finalized := by
  cases h with
  | init => cases hi
  | useAfterFinalize => exact .inl rfl
  | lengthOverflow => exact .inl rfl
  | update _ hp => exact (takeBytes_phase i.bytes s).imp_right fun e => ⟨e, hp⟩
  | finalize => cases hi

theorem Completes.len_of_finalize {s t : State} (h : Completes s .finalize t) : t.len = s.len := by
  cases h with
  | useAfterFinalize => rfl
  | lengthOverflow hi => cases hi
  | update hi => cases hi
  | finalize => simp

/-- Settles O26: each clause is a fact about what a command can have done. -/
theorem commandFrame : Obligations.CommandFrame := by
  intro i s t h
  have hc := completes_of_exec h
  exact ⟨hc.pending_eq, hc.responses_append, hc.hash_phase_of_short, hc.phase_of_update,
    fun hi => Completes.len_of_finalize (hi ▸ hc)⟩

theorem HashState.toWords_getElem? (d : HashState) (i : Fin 8) : d.toWords[(i : Nat)]? = some (d.get i) := by
  fin_cases i <;> rfl

theorem Response.readPort_digest (w : Word) (d : HashState) (k : Nat) :
    Response.readPort ⟨w, some d⟩ k = if 2 ≤ k then (Response.words ⟨w, some d⟩)[k - 2]? else none := by
  obtain hk | rfl | ⟨i, rfl⟩ : k < 2 ∨ k = 2 ∨ ∃ i, k = i + 3 := by
    by_cases h : 3 ≤ k
    · exact .inr (.inr ⟨k - 3, by omega⟩)
    · omega
  · simp [Response.readPort, show k ≠ 2 by omega, show ¬ 3 ≤ k by omega, show ¬ 2 ≤ k by omega]
  · rfl
  · by_cases hi : i < 8
    · simp [Response.readPort, Response.words, show i + 3 < 11 by omega, d.toWords_getElem? ⟨i, hi⟩]
    · simp [Response.readPort, Response.words, show ¬ i + 3 < 11 by omega, show 8 ≤ i by omega, HashState.toWords]

theorem Response.readPort_none (w : Word) (k : Nat) :
    Response.readPort ⟨w, none⟩ k = if k = 2 then some w else none := by
  simp [Response.readPort]

/-- Settles O14: the words by computation, the ports by their distance from P3. -/
theorem responsePorts : Obligations.ResponsePorts :=
  fun w d => ⟨rfl, rfl, Response.readPort_digest w d, Response.readPort_none w⟩

end Sys2Proof.Machine
end

/-! ## Proofs: the invariants of R25 and the form of the responses, at reset and over every step -/

section
namespace Sys2Proof.Machine

/-! ### R25 -/

/-- R25 in an open message. -/
theorem State.inv_iff_of_open {s : State} (hp : s.phase ≠ .finalized) :
    s.Inv ↔ s.buf.length = s.len.toNat % 64 ∧ (s.phase = .initialized ↔ s.len.toNat < 64) ∧
      (s.phase = .processing ↔ 64 ≤ s.len.toNat) ∧ s.len.toNat ≤ Config.lenMax := by
  simp [State.Inv, hp]

/-- R25 after FINALIZE. -/
theorem State.inv_iff_of_finalized {s : State} (hp : s.phase = .finalized) :
    s.Inv ↔ s.buf = [] ∧ s.len.toNat ≤ Config.lenMax := by
  simp [State.Inv, hp]

/-- R25 speaks of the phase, the buffer and L alone, so neither channel matters to it. -/
theorem State.inv_withPending {s : State} (rest : List Beat) : State.Inv { s with pending := rest } ↔ s.Inv := Iff.rfl

theorem State.inv_respond (st : Status) (dg : Option HashState) (s : State) : (respond st dg s).Inv ↔ s.Inv := Iff.rfl

theorem State.inv_raiseError (st : Status) (s : State) : (raiseError st s).Inv ↔ s.Inv := Iff.rfl

theorem State.Inv.len_le {s : State} (hi : s.Inv) : s.len.toNat ≤ Config.lenMax := by
  obtain ⟨-, -, -, -, hl⟩ := hi
  exact hl

theorem State.Inv.buf_length_le {s : State} (hi : s.Inv) : s.buf.length ≤ 63 := by
  by_cases hp : s.phase = .finalized
  · simp [((State.inv_iff_of_finalized hp).mp hi).left]
  · have hb := ((State.inv_iff_of_open hp).mp hi).left
    omega

/-- The fill agrees with the counter, so the padded tail is a whole number of blocks. -/
theorem State.Inv.tail_length_mod {s : State} (hi : s.Inv) (hp : s.phase ≠ .finalized) :
    (tail s.buf s.len).length % 64 = 0 := by
  have hb := ((State.inv_iff_of_open hp).mp hi).left
  rw [Machine.tail_length_mod]
  omega

theorem State.reset_inv : State.reset.Inv := by decide

theorem startMessage_inv (s : State) : (startMessage s).Inv := by simp [State.Inv]

theorem closeMessage_inv {s : State} (h : HashState) (hi : s.Inv) : (closeMessage h s).Inv :=
  (State.inv_iff_of_finalized (closeMessage_phase h s)).mpr ⟨closeMessage_buf h s, hi.len_le⟩

theorem takeByte_len_toNat {s : State} (b : Byte) (hl : s.len.toNat + 1 ≤ Config.lenMax) :
    (takeByte s b).len.toNat = s.len.toNat + 1 :=
  takeBytes_len_toNat (bs := [b]) hl

/-- One byte moves fill and counter together; the byte that completes a block brings the counter to a multiple of 64, at least 64. -/
theorem takeByte_inv {s : State} (b : Byte) (hi : s.Inv) (hp : s.phase ≠ .finalized)
    (hl : s.len.toNat + 1 ≤ Config.lenMax) : (takeByte s b).Inv := by
  have hp' : (takeByte s b).phase ≠ .finalized := takeBytes_phase_ne_finalized [b] hp
  obtain ⟨hb, hini, hproc, -⟩ := (State.inv_iff_of_open hp).mp hi
  rw [State.inv_iff_of_open hp', takeByte_len_toNat b hl]
  by_cases hf : s.buf.length + 1 = 64
  · simp only [takeByte_of_eq hf, compressBuffer_buf, compressBuffer_phase, List.length_nil, reduceCtorEq, false_iff,
      true_iff]
    omega
  · rw [takeByte_of_ne hf, storeByte_phase, storeByte_buf, hini, hproc, List.length_append, List.length_singleton]
    omega

theorem takeBytes_inv {s : State} (bs : List Byte) (hi : s.Inv) (hp : s.phase ≠ .finalized)
    (hl : s.len.toNat + bs.length ≤ Config.lenMax) : (takeBytes bs s).Inv := by
  induction bs generalizing s with
  | nil => exact hi
  | cons b bs ih =>
    rw [List.length_cons] at hl
    have hlen := takeByte_len_toNat (s := s) b (by omega)
    exact ih (takeByte_inv b hi hp (by omega)) (takeBytes_phase_ne_finalized [b] hp) (by omega)

theorem Completes.keeps_inv {i : Instr} {s t : State} (h : Completes s i t) (hi : s.Inv) : t.Inv := by
  cases h with
  | init => exact (State.inv_respond _ _ _).mpr (startMessage_inv s)
  | useAfterFinalize => exact (State.inv_raiseError _ s).mpr hi
  | lengthOverflow => exact (State.inv_raiseError _ s).mpr hi
  | update _ hp hl => exact (State.inv_respond _ _ _).mpr (takeBytes_inv _ hi hp hl)
  | finalize => exact (State.inv_respond _ _ _).mpr (closeMessage_inv _ hi)

/-! ### The form of the responses -/

theorem Status.code_toNat_le (st : Status) : st.code.toNat ≤ 3 := by cases st <;> decide

theorem Phase.code_toNat_le (ph : Phase) : ph.code.toNat ≤ 2 := by cases ph <;> decide

theorem Status.code_eq_zero_iff (st : Status) : st.code = 0 ↔ st = .ok := by cases st <;> decide

theorem Phase.code_eq_two_iff (ph : Phase) : ph.code = 2 ↔ ph = .finalized := by cases ph <;> decide

/-- A response the engine forms is legal when its digest is there exactly with OK and Finalized. -/
theorem Response.legal_respWord {st : Status} {ph : Phase} {dg : Option HashState}
    (h : dg.isSome = true ↔ st = .ok ∧ ph = .finalized) : Response.Legal ⟨respWord st ph, dg⟩ := by
  simp only [Response.Legal, respWord_status, respWord_phase, respWord_zero, Status.code_eq_zero_iff,
    Phase.code_eq_two_iff]
  exact ⟨st.code_toNat_le, ph.code_toNat_le, trivial, h⟩

theorem respond_responsesLegal {st : Status} {dg : Option HashState} {s : State} (hs : s.ResponsesLegal)
    (h : dg.isSome = true ↔ st = .ok ∧ s.phase = .finalized) : (respond st dg s).ResponsesLegal := by
  intro r hr
  rw [respond_responses, List.mem_append, List.mem_singleton] at hr
  rcases hr with hr | rfl
  · exact hs r hr
  · exact Response.legal_respWord h

theorem raiseError_responsesLegal {code : Status} {s : State} (hs : s.ResponsesLegal) (hc : code ≠ .ok) :
    (raiseError code s).ResponsesLegal :=
  respond_responsesLegal hs (by simp [hc])

theorem Completes.keeps_responsesLegal {i : Instr} {s t : State} (h : Completes s i t) (hs : s.ResponsesLegal) :
    t.ResponsesLegal := by
  cases h with
  | init => exact respond_responsesLegal hs (by simp)
  | useAfterFinalize => exact raiseError_responsesLegal hs (by decide)
  | lengthOverflow => exact raiseError_responsesLegal hs (by decide)
  | update _ hp =>
    have hs' : (takeBytes i.bytes s).ResponsesLegal := by simpa only [State.ResponsesLegal, takeBytes_responses] using hs
    exact respond_responsesLegal hs' (by simp [takeBytes_phase_ne_finalized i.bytes hp])
  | finalize => exact respond_responsesLegal hs (by simp)

/-! ### The step -/

/-- What a step can have done when it answers a next state: nothing, a rejection, or a command completed. -/
theorem step_next_cases {s t : State} (h : step s = .next t) :
    (s.pending = [] ∧ t = s) ∨
    (∃ b rest i, s.pending = b :: rest ∧ decode b = .ok i ∧ Completes { s with pending := rest } i t) ∨
    (∃ b rest why, s.pending = b :: rest ∧ decode b = .error why ∧
      t = raiseError .illegalCommand { s with pending := rest }) := by
  rcases step_cases s with ⟨hp, e⟩ | ⟨b, rest, i, hp, hd, e⟩ | ⟨b, rest, why, hp, hd, e⟩ <;> rw [e] at h
  · cases h
    exact .inl ⟨hp, rfl⟩
  · exact .inr (.inl ⟨b, rest, i, hp, hd, completes_of_exec h⟩)
  · cases h
    exact .inr (.inr ⟨b, rest, why, hp, hd, rfl⟩)

theorem step_keeps_inv {s t : State} (hi : s.Inv) (h : step s = .next t) : t.Inv := by
  rcases step_next_cases h with ⟨-, rfl⟩ | ⟨b, rest, i, -, -, hc⟩ | ⟨b, rest, why, -, -, rfl⟩
  · exact hi
  · exact hc.keeps_inv ((State.inv_withPending rest).mpr hi)
  · exact (State.inv_raiseError _ _).mpr ((State.inv_withPending rest).mpr hi)

theorem step_keeps_responsesLegal {s t : State} (hs : s.ResponsesLegal) (h : step s = .next t) : t.ResponsesLegal := by
  rcases step_next_cases h with ⟨-, rfl⟩ | ⟨b, rest, i, -, -, hc⟩ | ⟨b, rest, why, -, -, rfl⟩
  · exact hs
  · exact hc.keeps_responsesLegal hs
  · exact raiseError_responsesLegal hs (by decide)

/-- Under R25 the one fault, the breach of R152, cannot happen. -/
theorem exec_next_of_inv (i : Instr) {s : State} (hi : s.Inv) : ∃ t, exec i s = .next t := by
  rcases exec_cases i s with ⟨t, e, -⟩ | ⟨-, hp, ht, -⟩
  · exact ⟨t, e⟩
  · exact absurd (hi.tail_length_mod hp) ht

theorem step_next_of_inv {s : State} (hi : s.Inv) : ∃ t, step s = .next t := by
  rcases step_cases s with ⟨-, e⟩ | ⟨b, rest, i, -, -, e⟩ | ⟨b, rest, why, -, -, e⟩ <;> rw [e]
  · exact ⟨s, rfl⟩
  · exact exec_next_of_inv i ((State.inv_withPending rest).mpr hi)
  · exact ⟨_, rfl⟩

/-- Settles O29, by the cases of a step. -/
theorem stepKeepsInvariant : Obligations.StepKeepsInvariant := fun _ _ => step_keeps_inv

/-! ### Reset and reached states -/

theorem State.reset_responsesLegal : State.reset.ResponsesLegal := fun _ hr => absurd hr List.not_mem_nil

/-- Settles O28: both parts by evaluating the reset state, which holds no response. -/
theorem resetMeetsInvariant : Obligations.ResetMeetsInvariant := ⟨State.reset_inv, State.reset_responsesLegal⟩

/-- What holds at reset and is kept by the host's writes, by deliveries and by steps holds of every reached state. -/
theorem Reachable.of_kept {P : State → Prop} (hreset : P State.reset) (hsend : ∀ b s, P s → P (s.send b))
    (hreceive : ∀ s, P s → P s.receive) (hstep : ∀ s t, P s → step s = .next t → P t) {s : State}
    (hs : Reachable s) : P s := by
  induction hs with
  | reset => exact hreset
  | event e _ ht ih =>
    cases e with
    | send b => cases ht; exact hsend b _ ih
    | receive => cases ht; exact hreceive _ ih
    | reset => cases ht; exact hreset
    | step => exact hstep _ _ ih ht

theorem Reachable.inv {s : State} (hs : Reachable s) : s.Inv :=
  hs.of_kept State.reset_inv (fun _ _ hi => hi) (fun _ hi => hi) fun _ _ => step_keeps_inv

theorem Reachable.responsesLegal {s : State} (hs : Reachable s) : s.ResponsesLegal :=
  hs.of_kept State.reset_responsesLegal (fun _ _ hl => hl) (fun _ hl r hr => hl r (List.mem_of_mem_tail hr))
    fun _ _ => step_keeps_responsesLegal

/-- Settles O30, by induction over the events of a run. -/
theorem reachedStatesAreSound : Obligations.ReachedStatesAreSound := fun _ hs =>
  ⟨hs.inv, hs.inv.buf_length_le, hs.responsesLegal, step_next_of_inv hs.inv⟩

end Sys2Proof.Machine
end

/-! ## Proofs: DATA words in the block, and the independence of the engines -/

section
namespace Sys2Proof.Machine

/-! ### DATA words in the block -/

/-- The four lanes, assembled big-endian, are the DATA word they were cut from (R71, R150). -/
theorem be32_lanes (b : Beat) : be32 b.lane0 b.lane1 b.lane2 b.lane3 = b.data := by
  apply BitVec.eq_of_toNat_eq
  simp only [be32_toNat, Beat.lane0, Beat.lane1, Beat.lane2, Beat.lane3, BitVec.extractLsb'_toNat,
    Nat.shiftRight_eq_div_pow]
  omega

/-- Bytes that end at a word boundary give the same words whatever follows, and what follows starts a word of its own. -/
theorem blockWords_append {p : List Byte} (hp : p.length % 4 = 0) (q : List Byte) :
    blockWords (p ++ q) = blockWords p ++ blockWords q := by
  induction p using blockWords.induct with
  | case1 b0 b1 b2 b3 rest ih =>
    have hrest : rest.length % 4 = 0 := by simp only [List.length_cons] at hp; omega
    simp [ih hrest]
  | case2 p hshort =>
    obtain rfl : p = [] := by
      rcases p with _ | ⟨b0, _ | ⟨b1, _ | ⟨b2, _ | ⟨b3, rest⟩⟩⟩⟩
      · rfl
      · simp at hp
      · simp at hp
      · simp at hp
      · exact (hshort b0 b1 b2 b3 rest rfl).elim
    rfl

/-- Settles O43: the aligned bytes before split off, and the four lanes are one group of the segmenter. -/
theorem alignedDataWordIsBlockWord : Obligations.AlignedDataWordIsBlockWord := by
  intro b before after hb
  rw [List.append_assoc, blockWords_append hb]
  simp [Beat.lanes, be32_lanes]

/-! ### Events one after another -/

theorem applyEvents_cons_eq_next_iff {e : Event} {es : List Event} {s t : State} :
    applyEvents (e :: es) s = .next t ↔ ∃ u, applyEvent e s = .next u ∧ applyEvents es u = .next t := by
  rw [applyEvents]
  cases applyEvent e s <;> simp

theorem System.run_cons_eq_next_iff {k : Nat} {e : Event} {es : List (Nat × Event)} {y z : System} :
    System.run ((k, e) :: es) y = .next z ↔ ∃ w, y.applyEvent k e = .next w ∧ w.run es = .next z := by
  rw [System.run]
  cases y.applyEvent k e <;> simp

/-- Everything an event on a channel can do to the system: nothing where no engine is, else what it does to that engine. -/
theorem System.applyEvent_eq_next_iff {k : Nat} {e : Event} {y w : System} :
    y.applyEvent k e = .next w ↔
      (y.engines[k]? = none ∧ w = y) ∨
      ∃ s t, y.engines[k]? = some s ∧ Machine.applyEvent e s = .next t ∧
        w = { y with engines := y.engines.set k t } := by
  rw [System.applyEvent]
  cases y.engines[k]? with
  | none => simp [eq_comm]
  | some s => cases he : Machine.applyEvent e s <;> simp [he, eq_comm]

@[simp] theorem eventsOn_nil (k : Nat) : eventsOn k [] = [] := rfl

@[simp] theorem eventsOn_cons_same (k : Nat) (e : Event) (es : List (Nat × Event)) :
    eventsOn k ((k, e) :: es) = e :: eventsOn k es := by
  simp [eventsOn]

theorem eventsOn_cons_of_ne {j k : Nat} (h : k ≠ j) (e : Event) (es : List (Nat × Event)) :
    eventsOn j ((k, e) :: es) = eventsOn j es := by
  simp [eventsOn, h]

/-! ### The engine on one channel -/

/-- What the events of one channel make of the engine on it, if there is one: it takes them all, and without an engine there is
none afterwards. -/
def ChannelRuns (es : List Event) : Option State → Option State → Prop
  | none, o => o = none
  | some s, o => ∃ t, applyEvents es s = .next t ∧ o = some t

@[simp] theorem channelRuns_none {es : List Event} {o : Option State} : ChannelRuns es none o ↔ o = none := Iff.rfl

theorem channelRuns_some {es : List Event} {s : State} {o : Option State} :
    ChannelRuns es (some s) o ↔ ∃ t, applyEvents es s = .next t ∧ o = some t := Iff.rfl

@[simp] theorem channelRuns_nil {a o : Option State} : ChannelRuns [] a o ↔ o = a := by
  cases a <;> simp [channelRuns_some, applyEvents]

theorem channelRuns_cons_some {e : Event} {es : List Event} {s : State} {o : Option State} :
    ChannelRuns (e :: es) (some s) o ↔ ∃ u, applyEvent e s = .next u ∧ ChannelRuns es (some u) o := by
  simp only [channelRuns_some, applyEvents_cons_eq_next_iff]
  constructor
  · rintro ⟨t, ⟨u, hu, ht⟩, ho⟩
    exact ⟨u, hu, t, ht, ho⟩
  · rintro ⟨u, hu, t, ht, ho⟩
    exact ⟨t, ⟨u, hu, ht⟩, ho⟩

/-- An event with no engine on its channel leaves every channel's run as it was. -/
theorem channelRuns_eventsOn_cons_of_none {y : System} {k : Nat} (hk : y.engines[k]? = none) (e : Event)
    (es : List (Nat × Event)) (j : Nat) (o : Option State) :
    ChannelRuns (eventsOn j ((k, e) :: es)) y.engines[j]? o ↔ ChannelRuns (eventsOn j es) y.engines[j]? o := by
  by_cases hj : k = j
  · subst hj
    simp [hk]
  · rw [eventsOn_cons_of_ne hj]

/-- An event that takes the engine on its channel to `t` is the first of that channel's run, and of no other's. -/
theorem channelRuns_eventsOn_cons_of_next {y : System} {k : Nat} {e : Event} {s t : State}
    (hk : y.engines[k]? = some s) (he : applyEvent e s = .next t) (es : List (Nat × Event)) (j : Nat)
    (o : Option State) :
    ChannelRuns (eventsOn j ((k, e) :: es)) y.engines[j]? o ↔
      ChannelRuns (eventsOn j es) (y.engines.set k t)[j]? o := by
  by_cases hj : k = j
  · subst hj
    obtain ⟨hlt, -⟩ := List.getElem?_eq_some_iff.mp hk
    rw [hk, eventsOn_cons_same, channelRuns_cons_some, List.getElem?_set_self hlt]
    simp [he]
  · rw [eventsOn_cons_of_ne hj, List.getElem?_set_ne hj]

/-- An execution is exactly its channels' runs, each on its own engine, and the parameters stay: nothing else decides it (R58). -/
theorem System.run_eq_next_iff {es : List (Nat × Event)} {y z : System} :
    y.run es = .next z ↔
      z.params = y.params ∧ ∀ k, ChannelRuns (eventsOn k es) y.engines[k]? z.engines[k]? := by
  induction es generalizing y with
  | nil =>
    obtain ⟨p, ss⟩ := y
    obtain ⟨q, ts⟩ := z
    simp [System.run, List.ext_getElem?_iff, eq_comm]
  | cons ke es ih =>
    obtain ⟨k, e⟩ := ke
    rw [System.run_cons_eq_next_iff]
    cases hk : y.engines[k]? with
    | none =>
      simp [System.applyEvent_eq_next_iff, hk, ih, channelRuns_eventsOn_cons_of_none hk]
    | some s =>
      by_cases hstop : ∃ t, Machine.applyEvent e s = .next t
      · obtain ⟨t, ht⟩ := hstop
        simp [System.applyEvent_eq_next_iff, hk, ht, ih, channelRuns_eventsOn_cons_of_next hk ht]
      · constructor
        · rintro ⟨w, hw, -⟩
          obtain ⟨hnone, -⟩ | ⟨s', t, hs', ht, -⟩ := System.applyEvent_eq_next_iff.mp hw
          · simp [hk] at hnone
          · obtain rfl : s = s' := by simpa [hk] using hs'
            exact absurd ⟨t, ht⟩ hstop
        · rintro ⟨-, hrun⟩
          have hrunk := hrun k
          rw [hk, eventsOn_cons_same, channelRuns_cons_some] at hrunk
          obtain ⟨t, ht, -⟩ := hrunk
          exact absurd ⟨t, ht⟩ hstop

/-- Settles O37: an execution is its channels' runs, so it says what each engine did, and only the events of each channel count. -/
theorem enginesAreIndependent : Obligations.EnginesAreIndependent := by
  constructor
  · intro es y z k s hrun hk
    obtain ⟨-, hch⟩ := System.run_eq_next_iff.mp hrun
    exact channelRuns_some.mp (hk ▸ hch k)
  · intro es es' y z hsame hrun
    rw [System.run_eq_next_iff] at hrun ⊢
    simpa only [hsame] using hrun

end Sys2Proof.Machine
end

/-! ## Proofs: the encoding of the commands, and the answer to every beat -/

section
namespace Sys2Proof

/-! ### Decoder and encoder -/

/-- A command's bytes are the first lanes of its encoding (R75). -/
theorem encode_lanes_take (i : Instr) : i.bytes = (encode i).lanes.take i.bytes.length := by
  cases i <;> simp [encode, Instr.bytes, Beat.lanes, Beat.lane0, Beat.lane1, Beat.lane2, Beat.lane3]

/-- The decoder told by the encoder: the CMD word of the command and its bytes in the first lanes; nothing else of the beat
matters (R72, R75). -/
theorem decode_ok_iff_encode (b : Beat) (i : Instr) :
    decode b = .ok i ↔ b.cmd = (encode i).cmd ∧ i.bytes = b.lanes.take i.bytes.length := by
  rw [decode_ok_iff]
  cases i <;> simp [encode, Instr.bytes, Beat.lanes]

theorem decode_encode (i : Instr) : decode (encode i) = .ok i :=
  (decode_ok_iff_encode _ i).mpr ⟨rfl, encode_lanes_take i⟩

/-- Settles O1: the encoding has its own CMD word and the command's bytes in its first lanes. -/
theorem decodeOfEncodedCommand : Obligations.DecodeOfEncodedCommand := fun i _ => decode_encode i

theorem decode_init_iff (b : Beat) : decode b = .ok .init ↔ b.cmd = 0x00000001 := by
  simp [decode_ok_iff_encode, encode, Instr.bytes]

theorem decode_finalize_iff (b : Beat) : decode b = .ok .finalize ↔ b.cmd = 0x00000003 := by
  simp [decode_ok_iff_encode, encode, Instr.bytes]

/-- CMD = 2 + 16·NB with NB at most 4 is an UPDATE of the first NB lanes (R74, R75). -/
theorem decode_update_of_cmd {b : Beat} {nb : Nat} (hnb : nb ≤ 4) (hc : b.cmd = BitVec.ofNat 32 (2 + 16 * nb)) :
    ∃ i : Instr, decode b = .ok i ∧ i.isUpdate = true ∧ i.bytes = b.lanes.take nb := by
  interval_cases nb
  · exact ⟨.update0, (decode_ok_iff_encode b _).mpr ⟨hc, rfl⟩, rfl, rfl⟩
  · exact ⟨.update1 b.lane0, (decode_ok_iff_encode b _).mpr ⟨hc, rfl⟩, rfl, rfl⟩
  · exact ⟨.update2 b.lane0 b.lane1, (decode_ok_iff_encode b _).mpr ⟨hc, rfl⟩, rfl, rfl⟩
  · exact ⟨.update3 b.lane0 b.lane1 b.lane2, (decode_ok_iff_encode b _).mpr ⟨hc, rfl⟩, rfl, rfl⟩
  · exact ⟨.update4 b.lane0 b.lane1 b.lane2 b.lane3, (decode_ok_iff_encode b _).mpr ⟨hc, rfl⟩, rfl, rfl⟩

/-- Settles O5: the lanes are the bytes of DATA by definition. -/
theorem updateOperandIsFirstLanes : Obligations.UpdateOperandIsFirstLanes := fun _ _ => decode_update_of_cmd

/-! ### The fields of a legal beat -/

theorem encode_fields (i : Instr) : Laws.EncodedFields.Statement i := by
  cases i with
  | init => exact Laws.EncodedFields.init
  | update0 => exact Laws.EncodedFields.update0
  | update1 b0 => exact Laws.EncodedFields.update1 b0
  | update2 b0 b1 => exact Laws.EncodedFields.update2 b0 b1
  | update3 b0 b1 b2 => exact Laws.EncodedFields.update3 b0 b1 b2
  | update4 b0 b1 b2 b3 => exact Laws.EncodedFields.update4 b0 b1 b2 b3
  | finalize => exact Laws.EncodedFields.finalize

section
variable {b : Beat} {i : Instr} (h : decode b = .ok i)
include h

/-- RSVD is zero and NB counts the command's bytes: they are the encoding's, since the CMD words agree (R71, R72). -/
theorem rsvd_nb_of_decode : b.rsvd = 0 ∧ b.nb.toNat = i.bytes.length := by
  obtain ⟨hc, -⟩ := (decode_ok_iff_encode b i).mp h
  obtain ⟨hr, hn, -⟩ := encode_fields i
  rw [Beat.rsvd, Beat.nb, hc]
  exact ⟨hr, hn⟩

/-- OP names the command (R78). -/
theorem op_of_decode :
    (b.op = 1 ∧ i = .init) ∨ (b.op = 2 ∧ i.isUpdate = true) ∨ (b.op = 3 ∧ i = .finalize) := by
  obtain ⟨hc, -⟩ := (decode_ok_iff_encode b i).mp h
  rw [Beat.op, hc]
  cases i <;> simp [encode, Instr.isUpdate]

end

/-- Settles O2: beat and encoding have the CMD word in common, and the command's bytes in their first lanes. -/
theorem encodeOfDecodedBeat : Obligations.EncodeOfDecodedBeat := by
  intro b i h
  obtain ⟨hc, hl⟩ := (decode_ok_iff_encode b i).mp h
  exact ⟨hc, (rsvd_nb_of_decode h).right, hl, (encode_lanes_take i).symm.trans hl⟩

theorem decodes_iff_legal_word (b : Beat) : (∃ i, decode b = .ok i) ↔
    b.cmd ∈ [(0x00000001 : Word), 0x00000002, 0x00000012, 0x00000022, 0x00000032, 0x00000042, 0x00000003] := by
  simp [decode_ok_iff, exists_or]

/-- Settles O3: the seven CMD words by the decoder's cases, and the OP values by the command each stands for. -/
theorem sevenLegalCommandWords : Obligations.SevenLegalCommandWords := by
  refine ⟨decodes_iff_legal_word, fun v => ⟨?_, ?_⟩, fun b i h => ?_⟩
  · rintro ⟨b, i, h, rfl⟩
    exact (op_of_decode h).imp And.left (Or.imp And.left And.left)
  · rintro (rfl | rfl | rfl)
    · exact ⟨_, _, decode_encode .init, by decide⟩
    · exact ⟨_, _, decode_encode .update0, by decide⟩
    · exact ⟨_, _, decode_encode .finalize, by decide⟩
  · rcases op_of_decode h with ⟨ho, rfl⟩ | ⟨ho, hi⟩ | ⟨ho, rfl⟩
    · simp [ho, Instr.isUpdate]
    · have hne : i ≠ .init ∧ i ≠ .finalize := by constructor <;> (rintro rfl; cases hi)
      simp [ho, hi, hne]
    · simp [ho, Instr.isUpdate]

/-- Settles O7: every word by evaluating the decoder on it. -/
theorem writtenOutWordsDecode : Obligations.WrittenOutWordsDecode := by
  refine ⟨?_, ?_, ?_, ?_, ?_, ?_, ?_, ?_⟩ <;> decide

/-- The four kinds of illegal beat (R77): each disagrees with a field of every legal beat. -/
theorem decode_error_of_illegal {b : Beat}
    (h : (b.op ≠ 1 ∧ b.op ≠ 2 ∧ b.op ≠ 3) ∨ b.rsvd ≠ 0 ∨ ((b.op = 1 ∨ b.op = 3) ∧ b.nb ≠ 0) ∨
      (b.op = 2 ∧ 5 ≤ b.nb.toNat)) : ∃ why, decode b = .error why := by
  cases hd : decode b with
  | error why => exact ⟨why, rfl⟩
  | ok i =>
    exfalso
    obtain ⟨hr, hn⟩ := rsvd_nb_of_decode hd
    have hlen := i.bytes_length_le
    rcases h with ⟨h1, h2, h3⟩ | h | ⟨ho, hnb⟩ | ⟨-, hnb⟩
    · rcases op_of_decode hd with ⟨ho, -⟩ | ⟨ho, -⟩ | ⟨ho, -⟩
      · exact h1 ho
      · exact h2 ho
      · exact h3 ho
    · exact h hr
    · have hi : i = .init ∨ i = .finalize := by
        rcases op_of_decode hd with ⟨-, hi⟩ | ⟨ho', -⟩ | ⟨-, hi⟩
        · exact .inl hi
        · simp [ho'] at ho
        · exact .inr hi
      apply hnb
      apply BitVec.eq_of_toNat_eq
      rcases hi with rfl | rfl <;> exact hn
    · omega

end Sys2Proof

namespace Sys2Proof.Machine

/-! ### The step -/

/-- Settles O4: such a beat decodes to no command, and the step is the rejection. -/
theorem illegalBeatsRaiseIllegalCommand : Obligations.IllegalBeatsRaiseIllegalCommand := by
  intro s b rest hp h
  obtain ⟨why, hd⟩ := decode_error_of_illegal h
  exact ⟨⟨respWord .illegalCommand s.phase, none⟩, step_of_error hp hd, respWord_status _ _ _, respWord_phase _ _ _,
    respWord_zero _ _ _, rfl⟩

/-- Two beats that decode to the same command make the same step. -/
theorem step_congr_of_decode {b b' : Beat} {i : Instr} (hb : decode b = .ok i) (hb' : decode b' = .ok i) (s : State)
    (rest : List Beat) : step { s with pending := b :: rest } = step { s with pending := b' :: rest } := by
  rw [step_of_ok rfl hb, step_of_ok rfl hb']

/-- Settles O6: the CMD word alone makes the command, and the command the step. -/
theorem initAndFinalizeIgnoreData : Obligations.InitAndFinalizeIgnoreData := by
  refine ⟨decode_init_iff, decode_finalize_iff, ?_⟩
  rintro s cmd data data' rest (hc | hc)
  · exact step_congr_of_decode ((decode_init_iff _).mpr hc) ((decode_init_iff _).mpr hc) s rest
  · exact step_congr_of_decode ((decode_finalize_iff _).mpr hc) ((decode_finalize_iff _).mpr hc) s rest

/-- Settles O11: the fields are the codes of R81 and R22. -/
theorem respWordFields : Obligations.RespWordFields := by
  intro st ph
  refine ⟨(respWord_status st ph none).trans ?_, (respWord_phase st ph none).trans ?_, respWord_zero st ph none⟩
  · cases st <;> rfl
  · cases ph <;> rfl

/-- The one response a command appends: its PHASE the phase after the command, its digest the words of H exactly on a successful
FINALIZE (R80). -/
theorem Completes.answer {i : Instr} {s t : State} (h : Completes s i t) :
    ∃ st : Status, t.responses =
      s.responses ++ [⟨respWord st t.phase, if i = .finalize ∧ st = .ok then some t.hash else none⟩] := by
  cases h with
  | init => exact ⟨.ok, by simp⟩
  | useAfterFinalize => exact ⟨.useAfterFinalize, by simp⟩
  | lengthOverflow => exact ⟨.lengthOverflow, by simp⟩
  | update hi =>
    have hne : i ≠ .finalize := by rintro rfl; cases hi
    exact ⟨.ok, by simp [hne]⟩
  | finalize => exact ⟨.ok, by simp⟩

/-- A step that takes a beat consumes it and appends the answer to it (R80, R195). -/
theorem step_answer {s t : State} {b : Beat} {rest : List Beat} (hp : s.pending = b :: rest) (h : step s = .next t) :
    ∃ st : Status, t.pending = rest ∧ t.responses =
      s.responses ++ [⟨respWord st t.phase, if decode b = .ok .finalize ∧ st = .ok then some t.hash else none⟩] := by
  rcases step_next_cases h with ⟨hp', -⟩ | ⟨b', rest', i, hp', hd, hc⟩ | ⟨b', rest', why, hp', hd, rfl⟩ <;>
    rw [hp] at hp' <;> cases hp'
  · obtain ⟨st, hr⟩ := hc.answer
    exact ⟨st, hc.pending_eq, by simpa [hd] using hr⟩
  · exact ⟨.illegalCommand, rfl, by simp⟩

/-- Settles O12: the fields of the answer are those of its RESP word. -/
theorem oneResponsePerBeat : Obligations.OneResponsePerBeat := by
  intro s t b rest hp h
  obtain ⟨st, hpend, hr⟩ := step_answer hp h
  refine ⟨_, hr, hpend, ?_, respWord_phase _ _ _, respWord_zero _ _ _, ?_⟩
  · rw [respWord_status]
    exact st.code_toNat_le
  · simp only [respWord_status, Status.code_eq_zero_iff]

/-- Settles O13, by the cases of a step. -/
theorem stepKeepsResponsesLegal : Obligations.StepKeepsResponsesLegal := fun _ _ => step_keeps_responsesLegal

end Sys2Proof.Machine
end

/-! ## Proofs: the assembler, the message absorbed by UPDATEs, and HASH -/

section
namespace Sys2Proof.Machine

/-! ### The assembler -/

theorem assemble_updateWord (nb : Nat) (d : Word) :
    assemble (.updateWord nb d) = if nb ≤ 4 then some ⟨BitVec.ofNat 32 (2 + 16 * nb), d⟩ else none := by
  simp [assemble, Asm.wellFormed, Config.dataLanes]

theorem assemble_updateString (cs : List Byte) :
    assemble (.updateString cs) = if cs.length ≤ 4 then some (updateBeat cs) else none := by
  simp [assemble, Asm.wellFormed, Config.dataLanes]

/-- A string of at most four bytes fills the first lanes of its beat, zeros the others (R83). -/
theorem updateBeat_lanes {cs : List Byte} (h : cs.length ≤ 4) :
    (updateBeat cs).lanes = cs ++ List.replicate (4 - cs.length) 0 := by
  rcases cs with _ | ⟨b0, _ | ⟨b1, _ | ⟨b2, _ | ⟨b3, _ | ⟨b4, rest⟩⟩⟩⟩⟩
  · rfl
  · simp [updateBeat, Beat.lanes, Beat.lane0, Beat.lane1, Beat.lane2, Beat.lane3]
  · simp [updateBeat, Beat.lanes, Beat.lane0, Beat.lane1, Beat.lane2, Beat.lane3]
  · simp [updateBeat, Beat.lanes, Beat.lane0, Beat.lane1, Beat.lane2, Beat.lane3]
  · simp [updateBeat, Beat.lanes, Beat.lane0, Beat.lane1, Beat.lane2, Beat.lane3]
  · simp only [List.length_cons] at h
    omega

/-- Such a beat is the UPDATE of the string's bytes. -/
theorem decode_updateBeat {cs : List Byte} (h : cs.length ≤ 4) :
    ∃ i : Instr, decode (updateBeat cs) = .ok i ∧ i.isUpdate = true ∧ i.bytes = cs := by
  obtain ⟨i, hd, hi, hb⟩ := decode_update_of_cmd h (b := updateBeat cs) rfl
  refine ⟨i, hd, hi, ?_⟩
  rw [hb, updateBeat_lanes h, List.take_left]

theorem decode_of_assemble {a : Asm} {b : Beat} (h : assemble a = some b) : ∃ i, decode b = .ok i := by
  cases a with
  | init => cases h; exact ⟨_, decode_encode .init⟩
  | finalize => cases h; exact ⟨_, decode_encode .finalize⟩
  | updateWord nb d =>
    rw [assemble_updateWord, Option.ite_none_right_eq_some] at h
    obtain ⟨hnb, h⟩ := h
    cases h
    obtain ⟨i, hd, -⟩ := decode_update_of_cmd hnb (b := ⟨BitVec.ofNat 32 (2 + 16 * nb), d⟩) rfl
    exact ⟨i, hd⟩
  | updateString cs =>
    rw [assemble_updateString, Option.ite_none_right_eq_some] at h
    obtain ⟨hcs, h⟩ := h
    cases h
    obtain ⟨i, hd, -⟩ := decode_updateBeat hcs
    exact ⟨i, hd⟩

/-- Settles O57: a short string is the UPDATE of its length with `updateBeat`'s DATA word. -/
theorem assemblerEncodes : Obligations.AssemblerEncodes := by
  refine ⟨rfl, rfl, assemble_updateWord, fun cs h => ?_, fun cs h => ?_, fun _ _ => decode_of_assemble⟩
  · rw [assemble_updateString, if_neg (by omega)]
  · refine ⟨(updateBeat cs).data, ?_, updateBeat_lanes h⟩
    rw [assemble_updateString, assemble_updateWord, if_pos h, if_pos h]
    rfl

/-! ### UPDATEB -/

/-- What beat j of UPDATEB carries (R84). -/
def chunk (m : List Byte) (j : Nat) : List Byte := slice m (4 * j) (min (4 * j + 4) m.length)

theorem updateB_eq_map_chunk (m : List Byte) :
    updateB m = ((List.range ((m.length + 3) / 4)).map (chunk m)).map updateBeat := by
  rw [List.map_map]
  rfl

theorem chunk_length (m : List Byte) (j : Nat) : (chunk m j).length = min 4 (m.length - 4 * j) := by
  rw [chunk, slice_length]
  omega

theorem chunk_eq_take_drop (m : List Byte) (j : Nat) : chunk m j = (m.drop (4 * j)).take 4 := by
  rw [chunk, slice, List.take_eq_take_iff, List.length_drop]
  omega

/-- The first k pieces are the first 4k bytes. -/
theorem flatten_chunks (m : List Byte) (k : Nat) : ((List.range k).map (chunk m)).flatten = m.take (4 * k) := by
  induction k with
  | zero => rfl
  | succ k ih =>
    rw [List.range_succ, List.map_append, List.flatten_append, ih, Nat.mul_succ, List.take_add]
    simp [chunk_eq_take_drop]

/-- Strings of at most four bytes are UPDATEs with just those bytes. -/
theorem decode_updateBeats {css : List (List Byte)} (h : ∀ cs ∈ css, cs.length ≤ 4) :
    ∃ is : List Instr, (css.map updateBeat).map decode = is.map .ok ∧ (∀ i ∈ is, i.isUpdate = true) ∧
      is.map Instr.bytes = css := by
  induction css with
  | nil => exact ⟨[], rfl, by simp, rfl⟩
  | cons cs css ih =>
    rw [List.forall_mem_cons] at h
    obtain ⟨hcs, hcss⟩ := h
    obtain ⟨i, hd, hi, hb⟩ := decode_updateBeat hcs
    obtain ⟨is, hds, his, hbs⟩ := ih hcss
    exact ⟨i :: is, by simp [hd, ← hds], by simpa [hi] using his, by simp [hb, hbs]⟩

/-- Settles O58: the commands' bytes are the pieces of four bytes the message is cut into. -/
theorem updateBSplitsTheMessage : Obligations.UpdateBSplitsTheMessage := by
  intro m
  have hle : ∀ cs ∈ (List.range ((m.length + 3) / 4)).map (chunk m), cs.length ≤ 4 := by
    intro cs hcs
    obtain ⟨j, -, rfl⟩ := List.mem_map.mp hcs
    rw [chunk_length]
    omega
  obtain ⟨is, hd, hi, hb⟩ := decode_updateBeats hle
  rw [← updateB_eq_map_chunk] at hd
  have hlen : is.length = (m.length + 3) / 4 := by simpa using congrArg List.length hb
  have hget : ∀ j i, is[j]? = some i → j < is.length ∧ i.bytes.length = min 4 (m.length - 4 * j) := by
    intro j i hj
    obtain ⟨hlt, -⟩ := List.getElem?_eq_some_iff.mp hj
    have hbj : i.bytes = chunk m j := by
      have hbj := congrArg (·[j]?) hb
      simpa only [List.getElem?_map, hj, List.getElem?_range (hlen ▸ hlt), Option.map_some, Option.some.injEq] using hbj
    exact ⟨hlt, by rw [hbj, chunk_length]⟩
  refine ⟨is, hd, hi, hlen, ?_, fun j i hj hlast => ?_, fun i hmem => ?_⟩
  · rw [List.flatMap_def, hb, flatten_chunks, List.take_of_length_le (by omega)]
  · obtain ⟨-, hn⟩ := hget j i hj
    omega
  · obtain ⟨j, hj⟩ := List.getElem?_of_mem hmem
    obtain ⟨hlt, hn⟩ := hget j i hj
    omega

/-! ### The message an open engine holds -/

/-- The open message of the engine is `m`: its whole blocks are compressed into H, the bytes after them are buffered, and L counts
them all (R206). -/
structure State.Holds (s : State) (m : List Byte) : Prop where
  inv : s.Inv
  phase_ne : s.phase ≠ .finalized
  len_eq : s.len.toNat = m.length
  buf_suffix : s.buf <:+ m
  hash_eq : s.hash = processBlocks iv (blocks m)

theorem startMessage_holds (s : State) : (startMessage s).Holds [] where
  inv := startMessage_inv s
  phase_ne := by simp
  len_eq := by simp
  buf_suffix := by simp
  hash_eq := rfl

/-- The response channel is no part of the message. -/
theorem State.Holds.withResponses {s : State} {m : List Byte} (h : s.Holds m) (rs : List Response) :
    State.Holds { s with responses := rs } m :=
  ⟨h.inv, h.phase_ne, h.len_eq, h.buf_suffix, h.hash_eq⟩

/-- The message is its whole blocks and then the buffer. -/
theorem State.Holds.exists_whole {s : State} {m : List Byte} (h : s.Holds m) :
    ∃ p, m = p ++ s.buf ∧ p.length % 64 = 0 ∧ s.hash = processBlocks iv (blocks p) := by
  obtain ⟨p, rfl⟩ := h.buf_suffix
  have hfill := ((State.inv_iff_of_open h.phase_ne).mp h.inv).left
  have hlen := h.len_eq
  rw [List.length_append] at hlen
  have hp : p.length % 64 = 0 := by omega
  have hbuf : blocks s.buf = [] := List.eq_nil_of_length_eq_zero (by rw [blocks_length]; omega)
  exact ⟨p, rfl, hp, by rw [h.hash_eq, blocks_append hp, hbuf, List.append_nil]⟩

/-- A byte taken is a byte of the message; the one that completes a block compresses it. -/
theorem takeByte_holds {s : State} {m : List Byte} (h : s.Holds m) (b : Byte) (hl : m.length + 1 ≤ Config.lenMax) :
    (takeByte s b).Holds (m ++ [b]) := by
  have hls : s.len.toNat + 1 ≤ Config.lenMax := by rw [h.len_eq]; exact hl
  have hfill := h.inv.buf_length_le
  obtain ⟨p, hm, hp, hh⟩ := h.exists_whole
  have hblocks : processBlocks iv (blocks (m ++ [b])) = processBlocks s.hash (blocks (s.buf ++ [b])) := by
    rw [hm, List.append_assoc, blocks_append hp, processBlocks_append, hh]
  have hinv : (takeByte s b).Inv := takeByte_inv b h.inv h.phase_ne hls
  have hne : (takeByte s b).phase ≠ .finalized := takeBytes_phase_ne_finalized [b] h.phase_ne
  have hlen : (takeByte s b).len.toNat = (m ++ [b]).length := by
    rw [takeByte_len_toNat b hls, h.len_eq, List.length_append, List.length_singleton]
  by_cases hf : s.buf.length + 1 = 64
  · have hone : blocks (s.buf ++ [b]) = [s.buf ++ [b]] := blocks_single (by simpa using hf)
    refine ⟨hinv, hne, hlen, ?_, ?_⟩ <;> rw [takeByte_of_eq hf]
    · exact List.nil_suffix
    · rw [compressBuffer_hash, storeByte_hash, storeByte_buf, hblocks, hone, processBlocks_cons, processBlocks_nil]
  · have hnone : blocks (s.buf ++ [b]) = [] := List.eq_nil_of_length_eq_zero (by simp; omega)
    refine ⟨hinv, hne, hlen, ?_, ?_⟩ <;> rw [takeByte_of_ne hf]
    · exact ⟨p, by rw [storeByte_buf, hm, List.append_assoc]⟩
    · rw [storeByte_hash, hblocks, hnone, processBlocks_nil]

theorem takeBytes_holds {s : State} {m : List Byte} (h : s.Holds m) (bs : List Byte)
    (hl : m.length + bs.length ≤ Config.lenMax) : (takeBytes bs s).Holds (m ++ bs) := by
  induction bs generalizing s m with
  | nil => rwa [List.append_nil]
  | cons b bs ih =>
    rw [List.length_cons] at hl
    rw [takeBytes_cons, List.append_cons]
    exact ih (takeByte_holds h b (by omega)) (by rw [List.length_append, List.length_singleton]; omega)

/-- The length field of a counter that did not wrap (R131, R133). -/
theorem bitLength_eq_ofNat {len : BitVec 61} {n : Nat} (h : len.toNat = n) :
    bitLength len = BitVec.ofNat 64 (8 * n) := by
  apply BitVec.eq_of_toNat_eq
  rw [bitLength_toNat, BitVec.toNat_ofNat, h]
  omega

/-- FINALIZE's tail completes the padding, so the blocks of the tail finish hash(M) (R136, R215). -/
theorem State.Holds.messageState_eq {s : State} {m : List Byte} (h : s.Holds m) :
    messageState m = processBlocks s.hash (blocks (tail s.buf s.len)) := by
  obtain ⟨p, hm, hp, hh⟩ := h.exists_whole
  have hpad : pad m = p ++ tail s.buf s.len := by
    rw [pad, tail, bitLength_eq_ofNat h.len_eq, h.len_eq]
    nth_rw 1 [hm]
    simp only [List.append_assoc]
  rw [messageState, hpad, blocks_append hp, processBlocks_append, hh]

theorem exec_finalize_of_holds {s : State} {m : List Byte} (h : s.Holds m) :
    exec .finalize s = .next (respond .ok (some (messageState m)) (closeMessage (messageState m) s)) := by
  rw [h.messageState_eq]
  rcases finishMessage_cases s with ⟨hp, -⟩ | ⟨-, ht, -⟩ | ⟨-, -, e⟩
  · exact absurd hp h.phase_ne
  · exact absurd (h.inv.tail_length_mod h.phase_ne) ht
  · exact e

section
variable {s : State} {m : List Byte} {i : Instr} (h : s.Holds m) (hi : i.isUpdate = true)
include h hi

theorem exec_update_of_holds (hl : m.length + i.bytes.length ≤ Config.lenMax) :
    exec i s = .next (respond .ok none (takeBytes i.bytes s)) := by
  rw [exec_update hi]
  rcases appendBytes_cases i.bytes s with ⟨hp, -⟩ | ⟨-, hl', -⟩ | ⟨-, -, e⟩
  · exact absurd hp h.phase_ne
  · rw [h.len_eq] at hl'
    omega
  · exact e

theorem exec_update_of_holds_overflow (hl : Config.lenMax < m.length + i.bytes.length) :
    exec i s = .next (raiseError .lengthOverflow s) := by
  rw [exec_update hi]
  rcases appendBytes_cases i.bytes s with ⟨hp, -⟩ | ⟨-, -, e⟩ | ⟨-, hl', -⟩
  · exact absurd hp h.phase_ne
  · exact e
  · rw [h.len_eq] at hl'
    omega

end

/-! ### The host of HASH -/

/-- On an empty command channel the host's beat is answered by its command, and the response channel is emptied. -/
theorem transact_of_respond {s u : State} {b : Beat} {i : Instr} {st : Status} {dg : Option HashState}
    (hp : s.pending = []) (hd : decode b = .ok i) (he : exec i s = .next (respond st dg u)) :
    transact b s = .next ({ u with responses := [] }, some ⟨respWord st u.phase, dg⟩) := by
  have hpend : (s.sendAll [b]).pending = [b] := by simp [hp]
  have hs : { s.sendAll [b] with pending := [] } = s := by
    rw [← hp]
    rfl
  have hstep : step (s.sendAll [b]) = .next (respond st dg u) := by rw [step_of_ok hpend hd, hs, he]
  simp [transact, runBeats, hp, runSteps, hstep]

theorem Response.isOk_respWord (st : Status) (ph : Phase) (dg : Option HashState) :
    Response.isOk ⟨respWord st ph, dg⟩ = true ↔ st = .ok := by
  rw [Response.isOk, respWord_status, decide_eq_true_iff]
  exact st.code_eq_zero_iff

section
variable {s u : State} {b : Beat} {i : Instr} {dg : Option HashState} (hp : s.pending = []) (hd : decode b = .ok i)
include hp hd

/-- After OK the host issues the next beat. -/
theorem issueUntilError_cons_of_ok (he : exec i s = .next (respond .ok dg u)) (bs : List Beat) (last : Option Response) :
    issueUntilError (b :: bs) last s =
      issueUntilError bs (some ⟨respWord .ok u.phase, dg⟩) { u with responses := [] } := by
  rw [issueUntilError, transact_of_respond hp hd he]
  simp [Response.isOk_respWord]

/-- At an error it stops. -/
theorem issueUntilError_cons_of_error {code : Status} (hc : code ≠ .ok) (he : exec i s = .next (raiseError code s))
    (bs : List Beat) (last : Option Response) :
    issueUntilError (b :: bs) last s = .next ({ s with responses := [] }, some ⟨respWord code s.phase, none⟩) := by
  rw [issueUntilError, transact_of_respond hp hd he]
  simp [Response.isOk_respWord, hc]

end

/-- UPDATEs that fit are all taken: the host goes on with the message they leave in the engine. -/
theorem issueUntilError_updates_of_le {bs : List Beat} {is : List Instr} {s : State} {m : List Byte} (hp : s.pending = [])
    (h : s.Holds m) (hd : bs.map decode = is.map .ok) (hi : ∀ i ∈ is, i.isUpdate = true)
    (hl : m.length + (is.flatMap Instr.bytes).length ≤ Config.lenMax) (last : Option Response) :
    ∃ (t : State) (last' : Option Response), t.pending = [] ∧ t.Holds (m ++ is.flatMap Instr.bytes) ∧
      ∀ rest, issueUntilError (bs ++ rest) last s = issueUntilError rest last' t := by
  induction is generalizing bs s m last with
  | nil =>
    obtain rfl : bs = [] := by simpa using hd
    exact ⟨s, last, hp, by simpa using h, fun _ => rfl⟩
  | cons i is ih =>
    obtain ⟨b, bs, rfl, hb, hbs⟩ := List.map_eq_cons_iff.mp hd
    rw [List.forall_mem_cons] at hi
    obtain ⟨hi, his⟩ := hi
    rw [List.flatMap_cons, List.length_append] at hl
    have hlen : m.length + i.bytes.length ≤ Config.lenMax := by omega
    obtain ⟨t, last', htp, ht, hrest⟩ := ih (s := { takeBytes i.bytes s with responses := [] }) (by simpa using hp)
      ((takeBytes_holds h i.bytes hlen).withResponses []) hbs his (by rw [List.length_append]; omega) _
    refine ⟨t, last', htp, by simpa using ht, fun rest => ?_⟩
    rw [List.cons_append, issueUntilError_cons_of_ok hp hb (exec_update_of_holds h hi hlen), hrest]

/-- UPDATEs that do not fit end at the first that passes the limit, with LengthOverflow (R233). -/
theorem issueUntilError_updates_of_gt {bs : List Beat} {is : List Instr} {s : State} {m : List Byte} (hp : s.pending = [])
    (h : s.Holds m) (hd : bs.map decode = is.map .ok) (hi : ∀ i ∈ is, i.isUpdate = true) (hm : m.length ≤ Config.lenMax)
    (hl : Config.lenMax < m.length + (is.flatMap Instr.bytes).length) (last : Option Response) (rest : List Beat) :
    ∃ (t : State) (r : Response), issueUntilError (bs ++ rest) last s = .next (t, some r) ∧ t.pending = [] ∧
      r.statusField = 2 ∧ r.digest = none := by
  induction is generalizing bs s m last with
  | nil =>
    rw [List.flatMap_nil, List.length_nil] at hl
    omega
  | cons i is ih =>
    obtain ⟨b, bs, rfl, hb, hbs⟩ := List.map_eq_cons_iff.mp hd
    rw [List.forall_mem_cons] at hi
    obtain ⟨hi, his⟩ := hi
    rw [List.flatMap_cons, List.length_append] at hl
    rw [List.cons_append]
    by_cases hlen : m.length + i.bytes.length ≤ Config.lenMax
    · rw [issueUntilError_cons_of_ok hp hb (exec_update_of_holds h hi hlen)]
      exact ih (by simpa using hp) ((takeBytes_holds h i.bytes hlen).withResponses []) hbs his
        (by rw [List.length_append]; omega) (by rw [List.length_append]; omega) _
    · rw [issueUntilError_cons_of_error hp hb (by decide) (exec_update_of_holds_overflow h hi (by omega))]
      exact ⟨_, _, rfl, hp, respWord_status _ _ _, rfl⟩

/-- Settles O33: INIT opens the empty message, the UPDATEs of UPDATEB take it all or overflow, and FINALIZE closes it. -/
theorem hashProgramComputesHash : Obligations.HashProgramComputesHash := by
  intro m s hp
  obtain ⟨is, hd, hi, -, hbytes, -⟩ := updateBSplitsTheMessage m
  have hinit : ∀ rest, issueUntilError (encode .init :: rest) none s =
      issueUntilError rest (some ⟨respWord .ok .initialized, none⟩) { startMessage s with responses := [] } :=
    fun rest => issueUntilError_cons_of_ok hp (decode_encode .init) rfl rest none
  have hopen : State.Holds { startMessage s with responses := [] } [] := (startMessage_holds s).withResponses []
  have hmax : Config.lenMax = 2 ^ 61 - 1 := rfl
  rw [hashMessage, hashProgram, List.cons_append, hinit]
  by_cases hl : m.length ≤ Config.lenMax
  · obtain ⟨t, last, htp, ht, hrest⟩ := issueUntilError_updates_of_le (by simpa using hp) hopen hd hi
      (by simpa [hbytes] using hl) (some ⟨respWord .ok .initialized, none⟩)
    rw [hbytes, List.nil_append] at ht
    rw [hrest, issueUntilError_cons_of_ok htp (decode_encode .finalize) (exec_finalize_of_holds ht)]
    refine ⟨_, _, rfl, htp, fun _ => ⟨respWord_status _ _ _, rfl, messageState m, rfl, ?_⟩, fun hgt => ?_⟩
    · rw [oneShot, if_pos hl]
    · omega
  · obtain ⟨t, r, e, htp, hst, hdg⟩ := issueUntilError_updates_of_gt (by simpa using hp) hopen hd hi (Nat.zero_le _)
      (by simpa [hbytes] using hl) (some ⟨respWord .ok .initialized, none⟩) [encode .finalize]
    refine ⟨t, r, e, htp, fun hle => ?_, fun _ => ⟨hst, hdg, ?_⟩⟩
    · omega
    · rw [oneShot, if_neg hl]

end Sys2Proof.Machine
end

/-! ## Proofs: the laws of the six round functions, and the tables as roots of the primes -/

section
namespace Sys2Proof.Machine

/-! ### The sigma functions -/

/-- A shifted-in bit reads 0: bit i is the operand's at i + n only where that is below 32. -/
theorem shr_getLsbD_of_lt (x : Word) (n i : Nat) :
    (shr x n).getLsbD i = (decide (i + n < 32) && x.getLsbD (i + n)) := by
  rw [shr_getLsbD]
  by_cases h : i + n < 32
  · simp [h]
  · simp [h, BitVec.getLsbD_of_ge x (i + n) (by omega)]

/-- Settles O53: each rotation and shift read at bit i by its own rule. -/
theorem sigmaBits : Obligations.SigmaBits := by
  intro x i hi
  refine ⟨?_, ?_, ?_, ?_⟩
  · simp (disch := decide) only [smallSigma0, BitVec.getLsbD_xor, rotr_getLsbD x _ hi, shr_getLsbD_of_lt]
  · simp (disch := decide) only [smallSigma1, BitVec.getLsbD_xor, rotr_getLsbD x _ hi, shr_getLsbD_of_lt]
  · simp (disch := decide) only [bigSigma0, BitVec.getLsbD_xor, rotr_getLsbD x _ hi]
  · simp (disch := decide) only [bigSigma1, BitVec.getLsbD_xor, rotr_getLsbD x _ hi]

theorem shr_xor (x y : Word) (n : Nat) : shr (x ^^^ y) n = shr x n ^^^ shr y n :=
  BitVec.ushiftRight_xor_distrib x y n

theorem rotr_xor (x y : Word) {n : Nat} (hn : n < 32) : rotr (x ^^^ y) n = rotr x n ^^^ rotr y n :=
  BitVec.eq_of_getLsbD_eq fun i hi => by
    simp only [BitVec.getLsbD_xor, rotr_getLsbD _ hn hi]

theorem rotr_rotr_comm (x : Word) {m n : Nat} (hm : m < 32) (hn : n < 32) : rotr (rotr x m) n = rotr (rotr x n) m :=
  BitVec.eq_of_getLsbD_eq fun i hi => by
    have hm' : (i + n) % 32 < 32 := Nat.mod_lt _ (by decide)
    have hn' : (i + m) % 32 < 32 := Nat.mod_lt _ (by decide)
    have hindex : ((i + n) % 32 + m) % 32 = ((i + m) % 32 + n) % 32 := by omega
    rw [rotr_getLsbD _ hn hi, rotr_getLsbD _ hm hm', rotr_getLsbD _ hm hi, rotr_getLsbD _ hn hn', hindex]

theorem smallSigma0_xor (x y : Word) : smallSigma0 (x ^^^ y) = smallSigma0 x ^^^ smallSigma0 y := by
  simp (disch := decide) only [smallSigma0, rotr_xor, shr_xor]
  ac_rfl

theorem smallSigma1_xor (x y : Word) : smallSigma1 (x ^^^ y) = smallSigma1 x ^^^ smallSigma1 y := by
  simp (disch := decide) only [smallSigma1, rotr_xor, shr_xor]
  ac_rfl

theorem bigSigma0_xor (x y : Word) : bigSigma0 (x ^^^ y) = bigSigma0 x ^^^ bigSigma0 y := by
  simp (disch := decide) only [bigSigma0, rotr_xor]
  ac_rfl

theorem bigSigma1_xor (x y : Word) : bigSigma1 (x ^^^ y) = bigSigma1 x ^^^ bigSigma1 y := by
  simp (disch := decide) only [bigSigma1, rotr_xor]
  ac_rfl

theorem bigSigma0_rotr (x : Word) {n : Nat} (hn : n < 32) : bigSigma0 (rotr x n) = rotr (bigSigma0 x) n := by
  rw [bigSigma0, bigSigma0, rotr_xor _ _ hn, rotr_xor _ _ hn, rotr_rotr_comm x hn (n := 2) (by decide),
    rotr_rotr_comm x hn (n := 13) (by decide), rotr_rotr_comm x hn (n := 22) (by decide)]

theorem bigSigma1_rotr (x : Word) {n : Nat} (hn : n < 32) : bigSigma1 (rotr x n) = rotr (bigSigma1 x) n := by
  rw [bigSigma1, bigSigma1, rotr_xor _ _ hn, rotr_xor _ _ hn, rotr_rotr_comm x hn (n := 6) (by decide),
    rotr_rotr_comm x hn (n := 11) (by decide), rotr_rotr_comm x hn (n := 25) (by decide)]

/-! ### Ch and Maj -/

theorem ch_getLsbD (x y z : Word) {i : Nat} (hi : i < 32) :
    (ch x y z).getLsbD i = if x.getLsbD i = true then y.getLsbD i else z.getLsbD i := by
  rw [ch, BitVec.getLsbD_xor, BitVec.getLsbD_and, BitVec.getLsbD_and, BitVec.getLsbD_not]
  cases x.getLsbD i <;> simp [hi]

theorem maj_getLsbD (x y z : Word) (i : Nat) :
    (maj x y z).getLsbD i = decide (2 ≤ (x.getLsbD i).toNat + (y.getLsbD i).toNat + (z.getLsbD i).toNat) := by
  have htable : ∀ a b c : Bool, (a && b ^^ a && c ^^ b && c) = decide (2 ≤ a.toNat + b.toNat + c.toNat) := by decide
  simp only [maj, BitVec.getLsbD_xor, BitVec.getLsbD_and, htable]

theorem ch_eq_or (x y z : Word) : ch x y z = (x &&& y) ||| (~~~x &&& z) :=
  BitVec.eq_of_getLsbD_eq fun i hi => by
    rw [ch_getLsbD x y z hi, BitVec.getLsbD_or, BitVec.getLsbD_and, BitVec.getLsbD_and, BitVec.getLsbD_not]
    cases x.getLsbD i <;> simp [hi]

theorem maj_eq_or (x y z : Word) : maj x y z = (x &&& y) ||| (x &&& z) ||| (y &&& z) :=
  BitVec.eq_of_getLsbD_eq fun i _ => by
    have htable : ∀ a b c : Bool, decide (2 ≤ a.toNat + b.toNat + c.toNat) = (a && b || a && c || b && c) := by decide
    simp only [maj_getLsbD, BitVec.getLsbD_or, BitVec.getLsbD_and, htable]

/-- Where x and y differ z has the deciding vote, and where they agree y is theirs. -/
theorem maj_eq_ch (x y z : Word) : maj x y z = ch (x ^^^ y) z y :=
  BitVec.eq_of_getLsbD_eq fun i hi => by
    have htable : ∀ a b c : Bool,
        decide (2 ≤ a.toNat + b.toNat + c.toNat) = if (a ^^ b) = true then c else b := by decide
    rw [maj_getLsbD, ch_getLsbD _ _ _ hi, BitVec.getLsbD_xor, htable]

theorem ch_zero (y z : Word) : ch 0 y z = z :=
  BitVec.eq_of_getLsbD_eq fun i hi => by
    have hzero : ¬(0 : Word).getLsbD i = true := by simp
    rw [ch_getLsbD _ _ _ hi, if_neg hzero]

theorem ch_allOnes (y z : Word) : ch 0xFFFFFFFF y z = y :=
  BitVec.eq_of_getLsbD_eq fun i hi => by
    have hone : (0xFFFFFFFF : Word).getLsbD i = true := (BitVec.getLsbD_allOnes (v := 32)).trans (decide_eq_true hi)
    rw [ch_getLsbD _ _ _ hi, if_pos hone]

theorem ch_self (x y : Word) : ch x y y = y :=
  BitVec.eq_of_getLsbD_eq fun i hi => by rw [ch_getLsbD x y y hi, ite_self]

theorem maj_self (x z : Word) : maj x x z = x := by
  rw [maj, BitVec.and_self, BitVec.xor_assoc, BitVec.xor_self, BitVec.xor_zero]

/-- Settles O54, by the bits of Ch and Maj. -/
theorem chooseAndMajorityBits : Obligations.ChooseAndMajorityBits :=
  ⟨fun x y z i hi => ⟨ch_getLsbD x y z hi, maj_getLsbD x y z i⟩,
    fun y z => ⟨ch_zero y z, ch_allOnes y z⟩,
    fun x y z => ⟨ch_self x y, maj_self x z⟩⟩

/-- Settles O55: linearity and rotation by the laws of `rotr` and `shr`, the small sigmas at x = 1, whose one bit
the shift drops and a rotation by 1 saves. -/
theorem roundFunctionLaws : Obligations.RoundFunctionLaws := by
  refine ⟨?_, fun x n _ hn => ⟨bigSigma0_rotr x hn, bigSigma1_rotr x hn⟩, ⟨1, 1, by decide⟩, ⟨1, 1, by decide⟩, ch_eq_or,
    fun x y z => ⟨maj_eq_or x y z, maj_eq_ch x y z⟩⟩
  simp only [List.forall_mem_cons]
  exact ⟨⟨rfl, smallSigma0_xor⟩, ⟨rfl, smallSigma1_xor⟩, ⟨rfl, bigSigma0_xor⟩, ⟨rfl, bigSigma1_xor⟩, List.forall_mem_nil _⟩

/-! ### The tables -/

/-- The numbers below n that satisfy p, in order, are the first values of `Nat.nth p`. -/
theorem nth_of_filter_range_getElem? {p : Nat → Prop} [DecidablePred p] {n t x : Nat}
    (h : ((List.range n).filter p)[t]? = some x) : Nat.nth p t = x := by
  induction n with
  | zero => simp at h
  | succ n ih =>
    rw [List.range_succ, List.filter_append] at h
    by_cases ht : t < ((List.range n).filter p).length
    · exact ih (by rwa [List.getElem?_append_left ht] at h)
    · have hcount : Nat.count p n = ((List.range n).filter p).length := List.countP_eq_length_filter
      rw [List.getElem?_append_right (by omega), List.getElem?_eq_some_iff] at h
      obtain ⟨hlt, hx⟩ := h
      by_cases hn : p n
      · have hlast : t - ((List.range n).filter p).length < 1 := by simpa [hn] using hlt
        have htn : t = Nat.count p n := by omega
        have hxn : n = x := by simpa [hn] using hx
        rw [htn, Nat.nth_count hn, hxn]
      · simp [hn] at hlt

/-- The 64 primes from 2 to 311 (R109). -/
def firstPrimes : List Nat :=
  [2, 3, 5, 7, 11, 13, 17, 19, 23, 29, 31, 37, 41, 43, 47, 53, 59, 61, 67, 71, 73, 79, 83, 89, 97, 101, 103, 107, 109, 113, 127] ++
  [131, 137, 139, 149, 151, 157, 163, 167, 173, 179, 181, 191, 193, 197, 199, 211, 223, 227, 229, 233, 239, 241, 251, 257, 263] ++
  [269, 271, 277, 281, 283, 293, 307, 311]

/-- By trial division up to the square root, which the kernel evaluates much faster than `Nat.Prime`'s own test. -/
theorem filter_prime_range : (List.range 312).filter Nat.Prime = firstPrimes := by
  have htrial (n : Nat) : decide n.Prime = decide (2 ≤ n ∧ ∀ m < n.sqrt + 1, 2 ≤ m → ¬m ∣ n) :=
    decide_eq_decide.mpr (Nat.prime_def_le_sqrt.trans (by simp only [Nat.lt_succ_iff]; tauto))
  rw [List.filter_congr fun n _ => htrial n]
  decide +kernel

theorem nth_prime_eq_firstPrimes {t : Nat} (ht : t < 64) : Nat.nth Nat.Prime t = firstPrimes.getD t 0 := by
  apply nth_of_filter_range_getElem? (n := 312)
  rw [filter_prime_range, List.getD_eq_getElem _ _ ht, List.getElem?_eq_getElem ht]

/-- The form of R109: cube roots rounded down, kept mod 2^32. -/
theorem roundConstants_eq_nthRoot : ∀ t < 64,
    (roundConstants.getD t 0).toNat = Nat.nthRoot 3 (firstPrimes.getD t 0 * 2 ^ 96) % 2 ^ 32 := by decide +kernel

/-- The form of R109: square roots rounded down, kept mod 2^32. -/
theorem iv_eq_nthRoot : ∀ i : Fin 8,
    (iv.get i).toNat = Nat.nthRoot 2 (firstPrimes.getD i 0 * 2 ^ 64) % 2 ^ 32 := by decide +kernel

/-- Settles O56: the primes by sieving, the tables by evaluating `Nat.nthRoot`, whose defining bounds are the library's. -/
theorem tablesAreTheRootsOfPrimes : Obligations.TablesAreTheRootsOfPrimes := by
  refine ⟨rfl, fun t ht => ?_, fun i => ?_⟩
  · rw [nth_prime_eq_firstPrimes ht]
    exact ⟨_, Nat.pow_nthRoot_le (.inl three_ne_zero), Nat.lt_pow_nthRoot_add_one three_ne_zero _, roundConstants_eq_nthRoot t ht⟩
  · rw [nth_prime_eq_firstPrimes (by omega)]
    exact ⟨_, Nat.pow_nthRoot_le (.inl two_ne_zero), Nat.lt_pow_nthRoot_add_one two_ne_zero _, iv_eq_nthRoot i⟩

end Sys2Proof.Machine
end

/-! ## Proofs: the layout and the length of the padded message, and the tail that completes it -/

section
namespace Sys2Proof.Machine

/-- The padding has the least number of zero bytes that takes the length to 56 mod 64 (R131). -/
theorem padZeros_le_of_mod {l z : Nat} (h : (l + 1 + z) % 64 = 56) : padZeros l ≤ z := by
  have hlt := padZeros_lt l
  have hspec := padZeros_spec l
  omega

theorem padBlocks_of_le {l : Nat} (h : l % 64 ≤ 55) : padBlocks l = l / 64 + 1 := by
  rw [padBlocks]
  omega

theorem padBlocks_of_gt {l : Nat} (h : 56 ≤ l % 64) : padBlocks l = l / 64 + 2 := by
  rw [padBlocks]
  omega

theorem pad_length_eq_padBlocks (m : List Byte) : (pad m).length = 64 * padBlocks m.length := by
  have hlt := padZeros_lt m.length
  have hspec := padZeros_spec m.length
  rw [pad_length, padBlocks]
  omega

/-- The tail of the last bytes completes the bytes before them to the padded message, wherever the message is cut (R136). -/
theorem pad_append {p q : List Byte} {len : BitVec 61} (h : len.toNat = (p ++ q).length) :
    pad (p ++ q) = p ++ tail q len := by
  rw [pad, tail, bitLength_eq_ofNat h, h]
  simp only [List.append_assoc]

theorem tail_length_of_le {buf : List Byte} {len : BitVec 61} (h : buf.length = len.toNat % 64) (h55 : buf.length ≤ 55) :
    (tail buf len).length = 64 := by
  rw [tail_length, padZeros_of_le (by omega)]
  omega

theorem tail_length_of_gt {buf : List Byte} {len : BitVec 61} (h : buf.length = len.toNat % 64) (h56 : 56 ≤ buf.length) :
    (tail buf len).length = 128 := by
  rw [tail_length, padZeros_of_gt (by omega)]
  omega

/-- Settles O39: z is `padZeros`, and the 64-bit length field does not wrap for a message of at most LEN_MAX bytes. -/
theorem padLayout : Obligations.PadLayout := fun m hm =>
  ⟨padZeros m.length, be64Bytes (BitVec.ofNat 64 (8 * m.length)), rfl, padZeros_spec m.length, fun _ => padZeros_le_of_mod,
    be64Bytes_length _, by rw [be64Bytes_value, BitVec.toNat_ofNat, Nat.mod_eq_of_lt (by omega)]⟩

/-- Settles O40: the zero bytes fill the last block exactly. -/
theorem paddedLength : Obligations.PaddedLength := fun m =>
  ⟨pad_length_eq_padBlocks m, rfl, ⟨padZeros m.length, padZeros_lt _, padZeros_spec _, pad_length m⟩,
    padBlocks_of_le, padBlocks_of_gt⟩

/-- Settles O41: cut the message after its last whole block; as many bytes remain as the counter says, mod 64. -/
theorem tailCompletesThePadding : Obligations.TailCompletesThePadding := by
  intro m hm
  have hlen : (BitVec.ofNat 61 m.length).toNat = m.length := by rw [BitVec.toNat_ofNat, Nat.mod_eq_of_lt (by omega)]
  have hfill : (m.drop (64 * (m.length / 64))).length = m.length % 64 := by
    rw [List.length_drop]
    omega
  have hcounter : (m.drop (64 * (m.length / 64))).length = (BitVec.ofNat 61 m.length).toNat % 64 := by rw [hfill, hlen]
  refine ⟨?_, fun h55 => tail_length_of_le hcounter (hfill.trans_le h55),
    fun h56 => tail_length_of_gt hcounter (h56.trans_eq hfill.symm)⟩
  rw [← pad_append (by rw [List.take_append_drop, hlen]), List.take_append_drop]

end Sys2Proof.Machine
end

/-! ## Proofs: the segmenter's words and blocks, and its breach as the only fault -/

section
namespace Sys2Proof.Machine

/-! ### The words of a block -/

/-- The segmenter's own case split: where its first pattern does not match, fewer than four bytes are left. -/
theorem length_lt_of_ne_cons4 {p : List Byte}
    (h : ∀ (b0 b1 b2 b3 : Byte) (rest : List Byte), p = b0 :: b1 :: b2 :: b3 :: rest → False) : p.length < 4 :=
  match p with
  | [] | [_] | [_, _] | [_, _, _] => by simp
  | b0 :: b1 :: b2 :: b3 :: rest => (h b0 b1 b2 b3 rest rfl).elim

theorem blockWords_length (p : List Byte) : (blockWords p).length = p.length / 4 := by
  induction p using blockWords.induct with
  | case1 b0 b1 b2 b3 rest ih =>
    simp only [blockWords_cons4, List.length_cons, ih]
    omega
  | case2 p hshort =>
    rw [blockWords.eq_2 p hshort, Nat.div_eq_of_lt (length_lt_of_ne_cons4 hshort), List.length_nil]

/-- Word i is the i-th group of four bytes, wherever that group is whole (R150). -/
theorem blockWords_getD {p : List Byte} {i : Nat} (hi : 4 * i + 4 ≤ p.length) :
    (blockWords p).getD i 0 =
      be32 (p.getD (4 * i) 0) (p.getD (4 * i + 1) 0) (p.getD (4 * i + 2) 0) (p.getD (4 * i + 3) 0) := by
  induction p using blockWords.induct generalizing i with
  | case1 b0 b1 b2 b3 rest ih =>
    cases i with
    | zero => rfl
    | succ i =>
      rw [List.length_cons, List.length_cons, List.length_cons, List.length_cons] at hi
      exact ih (by omega)
  | case2 p hshort =>
    have hlt := length_lt_of_ne_cons4 hshort
    omega

/-- Settles O42: word i is its group of four bytes, assembled big-endian. -/
theorem blockWordAssembly : Obligations.BlockWordAssembly := by
  intro blk hblk
  refine ⟨by rw [blockWords_length, hblk], fun i hi => ?_⟩
  rw [blockWords_getD (by omega), be32_toNat]

/-! ### The blocks of a sequence -/

theorem blocks_eq_cons_of_le {p : List Byte} (hp : 64 ≤ p.length) : blocks p = p.take 64 :: blocks (p.drop 64) := by
  have hfirst : (p.take 64).length = 64 := List.length_take_of_le hp
  conv_lhs => rw [← List.take_append_drop 64 p]
  rw [blocks_append (by rw [hfirst]), blocks_single hfirst, List.singleton_append]

theorem length_of_mem_blocks {p b : List Byte} (hb : b ∈ blocks p) : b.length = 64 := by
  obtain ⟨j, hj, rfl⟩ := List.mem_map.mp hb
  rw [List.mem_range] at hj
  rw [slice_length]
  unfold Config.blockBytes at *
  omega

/-- Whole blocks are the sequence again, put together in order (R151). -/
theorem blocks_flatten_of_length {p : List Byte} {n : Nat} (hp : p.length = 64 * n) : (blocks p).flatten = p := by
  induction n generalizing p with
  | zero =>
    obtain rfl := List.eq_nil_of_length_eq_zero hp
    rfl
  | succ n ih =>
    have hrest : (p.drop 64).length = 64 * n := by rw [List.length_drop]; omega
    rw [blocks_eq_cons_of_le (by omega), List.flatten_cons, ih hrest, List.take_append_drop]

/-- Settles O44: the segmenter answers the blocks exactly where no byte is left over. -/
theorem segmentsInOrder : Obligations.SegmentsInOrder := fun p =>
  ⟨fun hp => ⟨blocks p, if_pos hp, blocks_length p, fun _ => length_of_mem_blocks,
    blocks_flatten_of_length (Nat.mul_div_cancel' (Nat.dvd_of_mod_eq_zero hp)).symm⟩, fun hp => if_neg hp⟩

/-! ### The only fault -/

/-- FINALIZE of an open message completes only where the tail is a whole number of blocks. -/
theorem Completes.tail_length_mod_of_finalize {s t : State} (h : Completes s .finalize t) (hp : s.phase ≠ .finalized) :
    (tail s.buf s.len).length % 64 = 0 := by
  cases h with
  | useAfterFinalize _ hp' => exact absurd hp' hp
  | lengthOverflow hi => cases hi
  | update hi => cases hi
  | finalize _ ht => exact ht

theorem exec_eq_fault_iff (i : Instr) (s : State) (r : Fault) : exec i s = .fault r ↔
    i = .finalize ∧ s.phase ≠ .finalized ∧ (tail s.buf s.len).length % 64 ≠ 0 := by
  cases r
  rcases exec_cases i s with ⟨t, e, hc⟩ | ⟨rfl, hp, ht, e⟩
  · rw [e]
    refine ⟨nofun, ?_⟩
    rintro ⟨rfl, hp, ht⟩
    exact absurd (hc.tail_length_mod_of_finalize hp) ht
  · exact iff_of_true e ⟨rfl, hp, ht⟩

theorem exec_ne_refused (i : Instr) (s : State) (r : Refusal) : exec i s ≠ .refused r := by
  rcases exec_cases i s with ⟨t, e, -⟩ | ⟨-, -, -, e⟩ <;> rw [e] <;> nofun

/-- Settles O10: the outcomes of a command, with the fill for the length of the tail. -/
theorem onlyTheSegmenterBreachFaults : Obligations.OnlyTheSegmenterBreachFaults := by
  refine fun i s => ⟨?_, exec_ne_refused i s⟩
  simp only [exec_eq_fault_iff, ne_eq, tail_length_mod]
  exact ⟨fun ⟨_, h⟩ => h, fun h => ⟨.partialBlock, h⟩⟩

end Sys2Proof.Machine
end

/-! ## Proofs: the message schedule and its sliding window (R161, R163) -/

section
namespace Sys2Proof.Machine

/-! ### The schedule -/

theorem schedule_eq_extendSchedule {m : List Word} (hm : m.length = 16) : schedule m = extendSchedule 48 m := by
  cases m with
  | nil => nomatch hm
  | cons m0 ms => rfl

/-- The words W[t] is made of are there already once W[0..t-1] are, so extending the schedule does not change it. -/
theorem nextScheduleWord_extendSchedule {n t : Nat} {w : List Word} (h16 : 16 ≤ t) (ht : t ≤ w.length) :
    nextScheduleWord (extendSchedule n w) t = nextScheduleWord w t := by
  have hearlier : ∀ k, 0 < k → (extendSchedule n w).getD (t - k) 0 = w.getD (t - k) 0 := fun k hk =>
    extendSchedule_getD (by omega)
  simp only [nextScheduleWord, hearlier 2 (by decide), hearlier 7 (by decide), hearlier 15 (by decide),
    hearlier 16 (by decide)]

/-- Each appended word satisfies the recurrence in the finished schedule (R161). -/
theorem extendSchedule_getD_eq_nextScheduleWord {n t : Nat} {w : List Word} (h16 : 16 ≤ w.length) (hw : w.length ≤ t)
    (ht : t < w.length + n) : (extendSchedule n w).getD t 0 = nextScheduleWord (extendSchedule n w) t := by
  induction n generalizing w with
  | zero => omega
  | succ n ih =>
    rw [extendSchedule]
    have hlen : (w ++ [nextScheduleWord w w.length]).length = w.length + 1 := List.length_append
    obtain rfl | hlt := Nat.eq_or_lt_of_le hw
    · have hold : nextScheduleWord (extendSchedule n (w ++ [nextScheduleWord w w.length])) w.length =
          nextScheduleWord w w.length := nextScheduleWord_extendSchedule (n := n + 1) h16 le_rfl
      rw [hold, extendSchedule_getD (by omega)]
      simp [List.getD_eq_getElem?_getD]
    · exact ih (by omega) (by omega) (by omega)

theorem schedule_length {m : List Word} (hm : m.length = 16) : (schedule m).length = 64 := by
  rw [schedule_eq_extendSchedule hm, extendSchedule_length, hm]

theorem schedule_getD_of_lt {m : List Word} (hm : m.length = 16) {t : Nat} (ht : t < 16) :
    (schedule m).getD t 0 = m.getD t 0 := by
  rw [schedule_eq_extendSchedule hm, extendSchedule_getD (by omega)]

theorem schedule_getD_of_ge {m : List Word} (hm : m.length = 16) {t : Nat} (h16 : 16 ≤ t) (ht : t < 64) :
    (schedule m).getD t 0 = nextScheduleWord (schedule m) t := by
  rw [schedule_eq_extendSchedule hm]
  exact extendSchedule_getD_eq_nextScheduleWord hm.ge (by omega) (by omega)

/-- Settles O45: the length, the words that stay and the recurrence. -/
theorem scheduleRule : Obligations.ScheduleRule := fun _ hm =>
  ⟨schedule_length hm, fun _ => schedule_getD_of_lt hm, fun _ ht h16 => schedule_getD_of_ge hm h16 ht⟩

/-! ### The window -/

/-- The window `w` as round t finds it holds W[j] at j mod 16 for the sixteen j up to t, or up to 15 in the rounds before (R163). -/
structure WindowHolds (w sched : List Word) (t : Nat) : Prop where
  length_eq : w.length = 16
  getD_eq : ∀ {j : Nat}, j ≤ max t 15 → max t 15 < j + 16 → w.getD (j % 16) 0 = sched.getD j 0

theorem windowStep_of_lt {t : Nat} (w : List Word) (ht : t < 16) : windowStep w t = w := if_pos ht

/-- From round 16 on the slot W[t-16] leaves takes W[t]: of the slots the step reads, none has been overwritten. -/
theorem WindowHolds.windowStep_succ {w sched : List Word} {t : Nat} (h : WindowHolds w sched t) (ht : 16 ≤ t + 1) :
    windowStep w (t + 1) = w.set ((t + 1) % 16) (nextScheduleWord sched (t + 1)) := by
  have hread : ∀ k, 0 < k → k ≤ 16 → w.getD ((t + 1 - k) % 16) 0 = sched.getD (t + 1 - k) 0 := fun k h0 h16 =>
    h.getD_eq (by omega) (by omega)
  have hslot : (t + 1 - 16) % 16 = (t + 1) % 16 := by omega
  rw [windowStep, if_neg (by omega), nextScheduleWord, hread 2 (by decide) (by decide), hread 7 (by decide) (by decide),
    hread 15 (by decide) (by decide), ← hslot, hread 16 (by decide) (by decide)]

/-- One step carries the window from round t to round t + 1 of any sequence that meets the recurrence there. -/
theorem WindowHolds.succ {w sched : List Word} {t : Nat} (h : WindowHolds w sched t)
    (hnext : 16 ≤ t + 1 → sched.getD (t + 1) 0 = nextScheduleWord sched (t + 1)) :
    WindowHolds (windowStep w (t + 1)) sched (t + 1) := by
  by_cases ht : t + 1 < 16
  · rw [windowStep_of_lt w ht]
    exact ⟨h.length_eq, fun hj hj' => h.getD_eq (by omega) (by omega)⟩
  · have h16 : 16 ≤ t + 1 := Nat.le_of_not_lt ht
    rw [h.windowStep_succ h16]
    refine ⟨by rw [List.length_set, h.length_eq], fun {j} hj hj' => ?_⟩
    rw [List.getD_eq_getElem?_getD]
    obtain rfl | hne := eq_or_ne j (t + 1)
    · have hslot : (t + 1) % 16 < w.length := by rw [h.length_eq]; omega
      rw [List.getElem?_set_self hslot, Option.getD_some, hnext h16]
    · have hslot : (t + 1) % 16 ≠ j % 16 := by omega
      rw [List.getElem?_set_ne hslot, ← List.getD_eq_getElem?_getD, h.getD_eq (by omega) (by omega)]

theorem windowAt_holds {m : List Word} (hm : m.length = 16) {t : Nat} (ht : t < 64) :
    WindowHolds (windowAt m t) (schedule m) t := by
  induction t with
  | zero =>
    refine ⟨hm, fun {j} hj _ => ?_⟩
    have hj16 : j < 16 := by omega
    rw [Nat.mod_eq_of_lt hj16, schedule_getD_of_lt hm hj16]
    rfl
  | succ t ih => exact (ih (by omega)).succ fun h16 => schedule_getD_of_ge hm h16 ht

/-- Settles O46: the window as round t finds it holds W[t] at t mod 16. -/
theorem windowGivesTheSchedule : Obligations.WindowGivesTheSchedule := fun _ hm _ ht =>
  (windowAt_holds hm ht).getD_eq (by omega) (by omega)

end Sys2Proof.Machine
end

/-! ## Proofs: the compression function, its rounds and sums, and the digest as bytes -/

section
namespace Sys2Proof.Machine

/-! ### One round -/

/-- Settles O47: both readings of the rule compute the same variables; with d first, e takes c + T1 in place of d + T1, so
variables with c ≠ d tell the orders apart. -/
theorem roundRule : Obligations.RoundRule := by
  refine ⟨fun v k w t1 t2 ht1 ht2 => ?_, ⟨0, 0, 1, 0, 0, 0, 0, 0⟩, 0, 0, fun h => ?_⟩
  · subst ht1 ht2
    exact ⟨rfl, rfl⟩
  · exact absurd (congrArg WorkVars.e h) (by decide)

/-! ### Sums in any order -/

theorem SumTree.sum_eq_words_sum (t : SumTree) : t.sum = t.words.sum := by
  induction t with
  | word w => exact List.sum_singleton.symm
  | add l r ihl ihr => rw [SumTree.sum, SumTree.words, List.sum_append, ihl, ihr]

theorem temp1_eq_sum (v : WorkVars) (k w : Word) :
    temp1 v k w = [v.h, bigSigma1 v.e, ch v.e v.f v.g, k, w].sum := by
  simp [temp1, add_assoc]

/-- Settles O48: a tree computes the sum of its words, which their order does not change. -/
theorem addTreeAnyOrder : Obligations.AddTreeAnyOrder := by
  refine ⟨fun v k w t ht => ?_, fun t u htu => ?_⟩
  · rw [t.sum_eq_words_sum, temp1_eq_sum, ht.sum_eq]
  · rw [t.sum_eq_words_sum, u.sum_eq_words_sum, htu.sum_eq]

/-! ### The rounds -/

theorem roundConstants_length : roundConstants.length = 64 := rfl

/-- While the second list is the shorter, one more element of it takes the next one of the first. -/
theorem zip_concat_of_length_lt {α β : Type} {ks : List α} {ws : List β} (w : β) (h : ws.length < ks.length) :
    ks.zip (ws ++ [w]) = ks.zip ws ++ [(ks[ws.length], w)] := by
  induction ws generalizing ks with
  | nil =>
    cases ks with
    | nil => nomatch h
    | cons k ks => simp
  | cons u ws ih =>
    cases ks with
    | nil => nomatch h
    | cons k ks => simpa using ih (Nat.lt_of_succ_lt_succ h)

theorem rounds_nil (h : HashState) : rounds h [] = loadVars h := by
  rw [rounds, List.zip_nil_right, List.foldl_nil]

/-- One more schedule word is one more round, on the variables after the rounds before it. -/
theorem rounds_concat (h : HashState) {ws : List Word} (w : Word) (hws : ws.length < 64) :
    rounds h (ws ++ [w]) = compressRound (rounds h ws) (roundConstants.getD ws.length 0) w := by
  have hlt : ws.length < roundConstants.length := by rwa [roundConstants_length]
  rw [rounds, rounds, zip_concat_of_length_lt w hlt, List.foldl_concat, List.getD_eq_getElem _ _ hlt]

/-- Settles O49: the variables before round t are those after the rounds on W[0..t-1]. -/
theorem roundsAreSerial : Obligations.RoundsAreSerial := by
  refine fun h w hw => ⟨fun t => rounds h (w.take t), rounds_nil h, fun t ht => ?_, ?_⟩
  · have htw : t < w.length := hw ▸ ht
    have hlen : (w.take t).length = t := List.length_take_of_le htw.le
    have htake : w.take t ++ [w.getD t 0] = w.take (t + 1) := by
      rw [List.getD_eq_getElem w 0 htw, List.take_concat_get' w t htw]
    have hround := rounds_concat h (w.getD t 0) (hlen.trans_lt ht)
    rwa [hlen, htake] at hround
  · exact congrArg (rounds h) (List.take_of_length_le hw.le).symm

/-! ### The block and the digest -/

theorem accumulate_toWords (h : HashState) (v : WorkVars) :
    (accumulate h v).toWords = List.zipWith (· + ·) h.toWords [v.a, v.b, v.c, v.d, v.e, v.f, v.g, v.h] := rfl

/-- Settles O50: ProcessBlock is the accumulate of the variables after the rounds. -/
theorem blockAccumulates : Obligations.BlockAccumulates := by
  intro h blk v hv
  rw [processBlock, ← hv]
  exact ⟨accumulate_toWords h v, (accumulate h v).toWords_getElem?⟩

/-- Each word gives four bytes, so byte j of word i stands at 4·i + j (R10). -/
theorem flatMap_be32Bytes_getElem? (ws : List Word) (i : Nat) (j : Fin 4) :
    (ws.flatMap be32Bytes)[4 * i + (j : Nat)]? = ws[i]?.map fun w => w.extractLsb' (24 - 8 * (j : Nat)) 8 := by
  induction ws generalizing i with
  | nil => rfl
  | cons w ws ih =>
    rw [List.flatMap_cons]
    cases i with
    | zero => fin_cases j <;> rfl
    | succ i =>
      have hskip : 4 * (i + 1) + (j : Nat) = (be32Bytes w).length + (4 * i + j) := by rw [be32Bytes_length]; omega
      rw [hskip, List.getElem?_append_right (Nat.le_add_right _ _), Nat.add_sub_cancel_left, ih, List.getElem?_cons_succ]

/-- Settles O51: word i of the eight is H[i]. -/
theorem digestSerialisation : Obligations.DigestSerialisation := by
  refine fun h => ⟨rfl, fun i j => ?_⟩
  rw [serialize, flatMap_be32Bytes_getElem?, h.toWords_getElem?, Option.map_some]

end Sys2Proof.Machine
end

/-! ## Proofs: the result of each command, and the phase after it -/

section
namespace Sys2Proof.Machine

/-! ### The step -/

theorem step_of_nil {s : State} (hp : s.pending = []) : step s = .next s := by
  simp [step, acceptBeat, hp, idle]

/-- Settles O8: the three cases of a step. -/
theorem stepRunsTheDecodedCommand : Obligations.StepRunsTheDecodedCommand := fun _ =>
  ⟨fun _ _ _ => step_of_ok, fun _ _ _ => step_of_error, step_of_nil⟩

/-- Settles O9: R25 excludes the segmenter's breach, the one fault there is. -/
theorem stepNeverStops : Obligations.StepNeverStops := fun _ => step_next_of_inv

theorem completes_of_step {s t : State} {b : Beat} {rest : List Beat} {i : Instr} (hp : s.pending = b :: rest)
    (hd : decode b = .ok i) (h : step s = .next t) : Completes { s with pending := rest } i t :=
  completes_of_exec ((step_of_ok hp hd).symm.trans h)

/-- In phase Finalized every command but INIT is rejected (R231). -/
theorem exec_of_finalized {i : Instr} {s : State} (hi : i ≠ .init) (hp : s.phase = .finalized) :
    exec i s = .next (raiseError .useAfterFinalize s) := by
  rcases exec_cases i s with ⟨t, e, hc⟩ | ⟨-, hp', -⟩
  · rw [e]
    cases hc with
    | init => exact absurd rfl hi
    | useAfterFinalize => rfl
    | lengthOverflow _ hp' => exact absurd hp hp'
    | update _ hp' => exact absurd hp hp'
    | finalize hp' => exact absurd hp hp'
  · exact absurd hp hp'

/-! ### INIT -/

theorem respWord_ok_initialized : respWord .ok .initialized = 0x00000000 := by decide

theorem exec_init (s : State) : exec .init s = .next (respond .ok none (startMessage s)) := rfl

/-- Settles O16: what INIT writes is its result, and only its CMD word makes the beat an INIT. -/
theorem initResult : Obligations.InitResult := by
  refine ⟨fun s => ?_, fun _ _ _ hp => step_of_ok hp ((decode_init_iff _).mpr rfl)⟩
  rw [exec_init, ← respWord_ok_initialized]
  rfl

/-! ### UPDATE -/

/-- An UPDATE that passes both of its checks takes its bytes and answers OK (R202). -/
theorem exec_update_of_le {i : Instr} {s : State} (hi : i.isUpdate = true) (hp : s.phase ≠ .finalized)
    (hl : s.len.toNat + i.bytes.length ≤ Config.lenMax) :
    exec i s = .next (respond .ok none (takeBytes i.bytes s)) := by
  rw [exec_update hi]
  rcases appendBytes_cases i.bytes s with ⟨hp', -⟩ | ⟨-, hl', -⟩ | ⟨-, -, e⟩
  · exact absurd hp' hp
  · omega
  · exact e

/-- The counter cannot stand above LEN_MAX: it has 61 bits (R24). -/
theorem State.len_le_lenMax (s : State) : s.len.toNat ≤ Config.lenMax :=
  Nat.le_sub_one_of_lt s.len.isLt

/-- Settles O17: without a byte only the phase check can fail. -/
theorem emptyUpdateResult : Obligations.EmptyUpdateResult := by
  intro s
  by_cases hp : s.phase = .finalized
  · rw [exec_of_finalized (by decide) hp, if_pos hp]
    rfl
  · rw [exec_update_of_le (i := .update0) rfl hp s.len_le_lenMax, if_neg hp]
    rfl

/-- A beat's bytes complete at most one block, so the fill stays below a block (R204). -/
theorem takeBytes_buf_length_le {bs : List Byte} {s : State} (hb : s.buf.length ≤ 63) (h4 : bs.length ≤ 4) :
    (takeBytes bs s).buf.length ≤ 63 := by
  by_cases hs : s.buf.length + bs.length < 64
  · rw [takeBytes_of_short hs, List.length_append]
    omega
  · obtain ⟨hbuf, -⟩ := takeBytes_of_cross hb (Nat.le_of_not_lt hs) (by omega)
    rw [hbuf, List.length_drop, List.length_append]
    omega

/-- Settles O18: the bytes taken, in a block that stays open or in one that they complete. -/
theorem updateResult : Obligations.UpdateResult := by
  intro i s hi hp hb hl
  have h4 := i.bytes_length_le
  refine ⟨_, exec_update_of_le hi hp hl, takeBytes_len_toNat hl, takeBytes_buf_length_le hb h4, takeBytes_pending _ _, ?_,
    fun hs => ?_, fun hc => takeBytes_of_cross hb hc (by omega)⟩
  · rw [respond_responses, takeBytes_responses, respond_phase]
  · simp [takeBytes_of_short hs]

/-! ### FINALIZE -/

theorem respWord_ok_finalized : respWord .ok .finalized = 0x00000020 := by decide

/-- FINALIZE of an open message with the fill the counter asks for (R210). -/
theorem exec_finalize_of_fill {s : State} (hp : s.phase ≠ .finalized) (hb : s.buf.length = s.len.toNat % 64) :
    exec .finalize s = .next (respond .ok (some (processBlocks s.hash (blocks (tail s.buf s.len))))
      (closeMessage (processBlocks s.hash (blocks (tail s.buf s.len))) s)) := by
  have ht : (tail s.buf s.len).length % 64 = 0 := (tail_length_mod s.buf s.len).mpr (by omega)
  rcases finishMessage_cases s with ⟨hp', -⟩ | ⟨-, ht', -⟩ | ⟨-, -, e⟩
  · exact absurd hp' hp
  · exact absurd ht ht'
  · exact e

/-- Settles O20: the blocks of the tail are the ones spelled out, one up to a fill of 55 and two from 56. -/
theorem finalizeResult : Obligations.FinalizeResult := by
  intro s hp hb
  refine ⟨be64Bytes (bitLength s.len), processBlocks s.hash (blocks (tail s.buf s.len)), be64Bytes_length _, ?_, ?_, ?_⟩
  · rw [be64Bytes_value, bitLength_toNat]
  · by_cases h55 : s.buf.length ≤ 55
    · rw [if_pos h55, blocks_tail_of_le hb h55, processBlocks_cons, processBlocks_nil]
    · rw [if_neg h55, blocks_tail_of_gt hb (by omega), processBlocks_cons, processBlocks_cons, processBlocks_nil]
  · rw [exec_finalize_of_fill hp hb, ← respWord_ok_finalized]
    rfl

/-! ### Phases -/

/-- Settles O24: INIT opens a message; what else decodes is used after FINALIZE, and what does not is illegal. -/
theorem finalizedHoldsUntilInit : Obligations.FinalizedHoldsUntilInit := by
  refine fun s b rest hp hpend => ⟨fun hd => ?_, fun hne => ?_⟩
  · refine ⟨_, (step_of_ok hpend hd).trans (exec_init _), respond_phase _ _ _, ?_⟩
    rw [respond_responses, startMessage_phase, respWord_ok_initialized, startMessage_responses]
  · cases hd : decode b with
    | ok i =>
      have hi : i ≠ .init := by
        rintro rfl
        exact hne hd
      have hexec : exec i { s with pending := rest } = _ := exec_of_finalized hi hp
      exact ⟨_, (step_of_ok hpend hd).trans hexec, respWord_status _ _ _, rfl⟩
    | error why => exact ⟨_, step_of_error hpend hd, respWord_status _ _ _, rfl⟩

theorem Completes.phase_of_init {s t : State} (h : Completes s .init t) : t.phase = .initialized := by
  cases h with
  | init => rfl
  | useAfterFinalize hi => simp [Instr.isUpdate] at hi
  | lengthOverflow hi => cases hi
  | update hi => cases hi

theorem Completes.phase_of_finalize {s t : State} (h : Completes s .finalize t) : t.phase = .finalized := by
  cases h with
  | useAfterFinalize _ hp => exact hp
  | lengthOverflow hi => cases hi
  | update hi => cases hi
  | finalize => rfl

/-- The first block of a message takes it to Processing (R205); so short a message cannot overflow. -/
theorem Completes.phase_of_update_initialized {i : Instr} {s t : State} (h : Completes s i t) (hi : i.isUpdate = true)
    (hinv : s.Inv) (hp : s.phase = .initialized) :
    t.phase = if 64 ≤ s.buf.length + i.bytes.length then .processing else .initialized := by
  have h4 := i.bytes_length_le
  have hbuf := hinv.buf_length_le
  cases h with
  | init => cases hi
  | useAfterFinalize _ hf => simp [hp] at hf
  | lengthOverflow _ hne hl =>
    obtain ⟨-, hshort, -⟩ := (State.inv_iff_of_open hne).mp hinv
    have hlen := hshort.mp hp
    simp only [Config.lenMax] at hl
    omega
  | update =>
    rw [respond_phase]
    by_cases hc : 64 ≤ s.buf.length + i.bytes.length
    · obtain ⟨-, -, hproc⟩ := takeBytes_of_cross hbuf hc (by omega)
      rw [if_pos hc, hproc]
    · rw [if_neg hc, takeBytes_of_short (Nat.lt_of_not_le hc), hp]
  | finalize => cases hi

theorem Completes.phase_of_update_of_ne {i : Instr} {s t : State} (h : Completes s i t) (hi : i.isUpdate = true)
    (hp : s.phase ≠ .initialized) : t.phase = s.phase := by
  rcases h.phase_of_update hi with e | ⟨e, hf⟩
  · exact e
  · cases hs : s.phase with
    | initialized => exact absurd hs hp
    | processing => exact e
    | finalized => exact absurd hs hf

/-- Settles O27: the rejection keeps the phase, and of the commands only UPDATE asks which phase it was. -/
theorem phaseTransitions : Obligations.PhaseTransitions := by
  intro s b rest hinv hp
  obtain ⟨t, ht⟩ := step_next_of_inv hinv
  refine ⟨t, ht, fun why hd => ?_, fun hd => (completes_of_step hp hd ht).phase_of_init, fun i hd hi => ?_,
    fun hd => (completes_of_step hp hd ht).phase_of_finalize⟩
  · rw [step_of_error hp hd] at ht
    cases ht
    rfl
  · have hc := completes_of_step hp hd ht
    cases hph : s.phase with
    | initialized => exact hc.phase_of_update_initialized hi ((State.inv_withPending rest).mpr hinv) hph
    | processing => exact (hc.phase_of_update_of_ne hi (by simp [hph])).trans hph
    | finalized => exact (hc.phase_of_update_of_ne hi (by simp [hph])).trans hph

end Sys2Proof.Machine
end

/-! ## Proofs: INIT, UPDATEs and FINALIZE one after another -/

section
namespace Sys2Proof.Machine

/-! ### Steps one after another -/

theorem runSteps_succ_of_next {n : Nat} {s u : State} (h : step s = .next u) : runSteps (n + 1) s = runSteps n u := by
  rw [runSteps, h]

/-- A step more after n steps. -/
theorem runSteps_succ_eq_step {n : Nat} {s t : State} (h : runSteps n s = .next t) : runSteps (n + 1) s = step t := by
  induction n generalizing s with
  | zero =>
    cases h
    rw [runSteps]
    cases step t <;> rfl
  | succ n ih =>
    rw [runSteps] at h
    cases hs : step s with
    | next u => rw [hs] at h; rw [runSteps_succ_of_next hs, ih h]
    | fault r => rw [hs] at h; cases h
    | refused r => rw [hs] at h; cases h

/-- From `s` the engine takes n steps to `t` and answers each with OK and no digest. -/
structure AnsweredOk (n : Nat) (s t : State) : Prop where
  run : runSteps n s = .next t
  answers : ∃ rs : List Response, t.responses = s.responses ++ rs ∧ rs.length = n ∧
    ∀ r ∈ rs, r.statusField = 0 ∧ r.digest = none

theorem answeredOk_zero (s : State) : AnsweredOk 0 s s := ⟨rfl, [], by simp⟩

theorem AnsweredOk.cons {n : Nat} {s u t : State} (hs : step s = .next (respond .ok none u))
    (hr : u.responses = s.responses) (h : AnsweredOk n (respond .ok none u) t) : AnsweredOk (n + 1) s t := by
  obtain ⟨rs, hrs, hlen, hok⟩ := h.answers
  refine ⟨(runSteps_succ_of_next hs).trans h.run, ⟨respWord .ok u.phase, none⟩ :: rs, ?_, by rw [List.length_cons, hlen], ?_⟩
  · rw [hrs, respond_responses, hr, List.append_assoc, List.singleton_append]
  · exact List.forall_mem_cons.mpr ⟨⟨respWord_status _ _ _, rfl⟩, hok⟩

/-! ### The message over a run -/

/-- The command channel is no part of the message. -/
theorem State.Holds.withPending {s : State} {m : List Byte} (h : s.Holds m) (bs : List Beat) :
    State.Holds { s with pending := bs } m :=
  ⟨h.inv, h.phase_ne, h.len_eq, h.buf_suffix, h.hash_eq⟩

theorem State.Holds.respond {s : State} {m : List Byte} (h : s.Holds m) (st : Status) (dg : Option HashState) :
    (respond st dg s).Holds m :=
  h.withResponses _

/-- UPDATEs that fit are all answered OK, and the message goes on with their bytes (R206). -/
theorem answeredOk_updates {bs rest : List Beat} {is : List Instr} {s : State} {m : List Byte}
    (hp : s.pending = bs ++ rest) (h : s.Holds m) (hd : bs.map decode = is.map .ok) (hi : ∀ i ∈ is, i.isUpdate = true)
    (hl : m.length + (is.flatMap Instr.bytes).length ≤ Config.lenMax) :
    ∃ t, AnsweredOk bs.length s t ∧ t.pending = rest ∧ t.Holds (m ++ is.flatMap Instr.bytes) := by
  induction is generalizing bs s m with
  | nil =>
    obtain rfl : bs = [] := by simpa using hd
    exact ⟨s, answeredOk_zero s, hp, by simpa using h⟩
  | cons i is ih =>
    obtain ⟨b, bs, rfl, hb, hbs⟩ := List.map_eq_cons_iff.mp hd
    rw [List.forall_mem_cons] at hi
    obtain ⟨hi, his⟩ := hi
    rw [List.flatMap_cons, List.length_append] at hl
    have hlen : m.length + i.bytes.length ≤ Config.lenMax := by omega
    have hs := h.withPending (bs ++ rest)
    have hstep := (step_of_ok hp hb).trans (exec_update_of_holds hs hi hlen)
    obtain ⟨t, hrun, hpend, ht⟩ := ih (by simp) ((takeBytes_holds hs i.bytes hlen).respond .ok none) hbs his
      (by rw [List.length_append]; omega)
    rw [List.append_assoc, ← List.flatMap_cons] at ht
    exact ⟨t, .cons hstep (takeBytes_responses _ _) hrun, hpend, ht⟩

/-- INIT forgets the state before it, so the engine holds just the UPDATEs' bytes (R200, R206). -/
theorem answeredOk_init_updates {s : State} {b0 : Beat} {bs rest : List Beat} {is : List Instr}
    (hp : s.pending = b0 :: bs ++ rest) (h0 : decode b0 = .ok .init) (hd : bs.map decode = is.map .ok)
    (hi : ∀ i ∈ is, i.isUpdate = true) (hl : (is.flatMap Instr.bytes).length ≤ Config.lenMax) :
    ∃ t, AnsweredOk (bs.length + 1) s t ∧ t.pending = rest ∧ t.Holds (is.flatMap Instr.bytes) := by
  have hstep := (step_of_ok hp h0).trans (exec_init _)
  obtain ⟨t, hrun, hpend, ht⟩ := answeredOk_updates (s := respond .ok none (startMessage { s with pending := bs ++ rest }))
    rfl ((startMessage_holds _).respond .ok none) hd hi (by simpa using hl)
  exact ⟨t, .cons hstep rfl hrun, hpend, ht⟩

/-! ### The state that holds a message -/

theorem blocks_eq_map_take_drop (p : List Byte) :
    blocks p = (List.range (p.length / 64)).map fun j => (p.drop (64 * j)).take 64 := by
  simp [blocks, slice, Config.blockBytes]

section
variable {s : State} {m : List Byte} (h : s.Holds m)
include h

theorem State.Holds.buf_eq : s.buf = m.drop (64 * (m.length / 64)) := by
  obtain ⟨p, hm, hp, -⟩ := h.exists_whole
  have hfill := h.inv.buf_length_le
  have hlen : m.length = p.length + s.buf.length := by rw [hm, List.length_append]
  have hwhole : 64 * (m.length / 64) = p.length := by omega
  rw [hwhole]
  conv_rhs => rw [hm, List.drop_left]

theorem State.Holds.phase_eq : s.phase = if m.length / 64 = 0 then .initialized else .processing := by
  obtain ⟨-, hini, hproc, -⟩ := (State.inv_iff_of_open h.phase_ne).mp h.inv
  rw [h.len_eq] at hini hproc
  split
  · exact hini.mpr (by omega)
  · exact hproc.mpr (by omega)

end

/-- Settles O31: INIT and the UPDATEs leave the engine holding the concatenated bytes. -/
theorem updatesConcatenate : Obligations.UpdatesConcatenate := by
  intro s b0 bs rest is hp h0 hd hi hl
  obtain ⟨t, hrun, hpend, ht⟩ := answeredOk_init_updates hp h0 hd hi hl
  obtain ⟨rs, hrs, hlen, hok⟩ := hrun.answers
  refine ⟨t, rs, hrun.run, hpend, hrs, hlen, hok, ht.len_eq, ht.buf_eq, ?_, ht.phase_eq⟩
  rw [ht.hash_eq, processBlocks, blocks_eq_map_take_drop]

/-- Settles O32: FINALIZE of the engine that holds the message answers with H of its padded blocks. -/
theorem incrementalEqualsOneShot : Obligations.IncrementalEqualsOneShot := by
  intro s b0 bf bs rest is hp h0 hd hi hf hl
  obtain ⟨t, hrun, hpend, ht⟩ := answeredOk_init_updates hp h0 hd hi hl
  obtain ⟨rs, hrs, hlen, hok⟩ := hrun.answers
  have hfin := (step_of_ok hpend hf).trans (exec_finalize_of_holds (ht.withPending rest))
  refine ⟨_, rs, messageState (is.flatMap Instr.bytes), (runSteps_succ_eq_step hrun.run).trans hfin, rfl, ?_, hlen, hok, rfl,
    if_pos hl⟩
  rw [respond_responses, closeMessage_responses, closeMessage_phase, respWord_ok_finalized, hrs]

end Sys2Proof.Machine
end

/-! ## Proofs: the errors of a command and of a beat, in the order of their checks (60_exceptions.md) -/

section
namespace Sys2Proof.Machine

/-! ### The status by the checks -/

/-- The status of a command by its checks in their order: the phase (R231), the exact length sum (R233), else OK (R236). -/
def checkStatus (i : Instr) (s : State) : Status :=
  if (i.isUpdate = true ∨ i = .finalize) ∧ s.phase = .finalized then .useAfterFinalize
  else if i.isUpdate = true ∧ Config.lenMax < s.len.toNat + i.bytes.length then .lengthOverflow
  else .ok

/-- The status of a beat: the decoder's check comes before the command's (R236). -/
def beatStatus (b : Beat) (s : State) : Status :=
  match decode b with
  | .ok i => checkStatus i s
  | .error _ => .illegalCommand

theorem beatStatus_of_ok {b : Beat} {i : Instr} (hd : decode b = .ok i) (s : State) : beatStatus b s = checkStatus i s := by
  rw [beatStatus, hd]

theorem beatStatus_of_error {b : Beat} {why : Illegal} (hd : decode b = .error why) (s : State) :
    beatStatus b s = .illegalCommand := by
  rw [beatStatus, hd]

theorem checkStatus_init (s : State) : checkStatus .init s = .ok := by simp [checkStatus, Instr.isUpdate]

theorem checkStatus_of_finalized {i : Instr} {s : State} (hi : i.isUpdate = true ∨ i = .finalize)
    (hp : s.phase = .finalized) : checkStatus i s = .useAfterFinalize :=
  if_pos ⟨hi, hp⟩

theorem checkStatus_eq_lengthOverflow_iff {i : Instr} {s : State} : checkStatus i s = .lengthOverflow ↔
    i.isUpdate = true ∧ s.phase ≠ .finalized ∧ Config.lenMax < s.len.toNat + i.bytes.length := by
  unfold checkStatus
  split_ifs with hf hl
  · exact iff_of_false nofun fun ⟨_, hne, _⟩ => hne hf.right
  · obtain ⟨hi, hlt⟩ := hl
    exact iff_of_true rfl ⟨hi, fun hp => hf ⟨.inl hi, hp⟩, hlt⟩
  · exact iff_of_false nofun fun ⟨hi, _, hlt⟩ => hl ⟨hi, hlt⟩

theorem checkStatus_of_open {i : Instr} {s : State} (hp : s.phase ≠ .finalized)
    (hl : i.isUpdate = true → s.len.toNat + i.bytes.length ≤ Config.lenMax) : checkStatus i s = .ok := by
  rw [checkStatus, if_neg (fun h => hp h.right), if_neg (fun h => Nat.not_lt.mpr (hl h.left) h.right)]

theorem Status.code_eq_two_iff (st : Status) : st.code = 2 ↔ st = .lengthOverflow := by cases st <;> decide

/-! ### What the checks decide -/

/-- The one response of a command carries the status of the checks. -/
theorem Completes.response_status {i : Instr} {s t : State} (h : Completes s i t) :
    ∃ dg, t.responses = s.responses ++ [⟨respWord (checkStatus i s) t.phase, dg⟩] := by
  cases h with
  | init => exact ⟨none, by simp [checkStatus_init]⟩
  | useAfterFinalize hi hp => exact ⟨none, by simp [checkStatus_of_finalized hi hp]⟩
  | lengthOverflow hi hp hl => exact ⟨none, by simp [checkStatus_eq_lengthOverflow_iff.mpr ⟨hi, hp, hl⟩]⟩
  | update _ hp hl => exact ⟨none, by simp [checkStatus_of_open hp fun _ => hl]⟩
  | finalize hp =>
    have hc : checkStatus .finalize s = .ok := checkStatus_of_open hp nofun
    exact ⟨_, by rw [hc]; rfl⟩

theorem Instr.ne_init {i : Instr} (hi : i.isUpdate = true ∨ i = .finalize) : i ≠ .init := by
  rintro rfl
  simp [Instr.isUpdate] at hi

/-- An UPDATE that passes the phase check and not the length check takes no byte (R233). -/
theorem exec_update_of_gt {i : Instr} {s : State} (hi : i.isUpdate = true) (hp : s.phase ≠ .finalized)
    (hl : Config.lenMax < s.len.toNat + i.bytes.length) : exec i s = .next (raiseError .lengthOverflow s) := by
  rw [exec_update hi]
  rcases appendBytes_cases i.bytes s with ⟨hp', -⟩ | ⟨-, -, e⟩ | ⟨-, hl', -⟩
  · exact absurd hp' hp
  · exact e
  · omega

/-- A command whose checks fail is rejected, and nothing else can become of it (R232). -/
theorem exec_of_checkStatus_ne_ok {i : Instr} {s : State} (hc : checkStatus i s ≠ .ok) :
    exec i s = .next (raiseError (checkStatus i s) s) := by
  unfold checkStatus at hc ⊢
  split_ifs at hc ⊢ with hf hl
  · obtain ⟨hi, hp⟩ := hf
    exact exec_of_finalized (Instr.ne_init hi) hp
  · obtain ⟨hi, hlt⟩ := hl
    exact exec_update_of_gt hi (fun hp => hf ⟨.inl hi, hp⟩) hlt
  · exact absurd rfl hc

section
variable {s t : State} {b : Beat} {rest : List Beat} (hp : s.pending = b :: rest)
include hp

theorem step_response_status (h : step s = .next t) :
    ∃ dg, t.responses = s.responses ++ [⟨respWord (beatStatus b s) t.phase, dg⟩] := by
  cases hd : decode b with
  | ok i =>
    rw [beatStatus_of_ok hd]
    exact (completes_of_step hp hd h).response_status
  | error why =>
    rw [step_of_error hp hd] at h
    cases h
    exact ⟨none, by simp [beatStatus_of_error hd]⟩

theorem step_of_beatStatus_ne_ok (hb : beatStatus b s ≠ .ok) :
    step s = .next (raiseError (beatStatus b s) { s with pending := rest }) := by
  cases hd : decode b with
  | ok i =>
    rw [beatStatus_of_ok hd] at hb ⊢
    exact (step_of_ok hp hd).trans (exec_of_checkStatus_ne_ok hb)
  | error why =>
    rw [beatStatus_of_error hd]
    exact step_of_error hp hd

/-- A response with an error shows that the checks failed, and so the whole of the step. -/
theorem step_eq_raiseError {r : Response} (h : step s = .next t) (hr : t.responses = s.responses ++ [r])
    (he : r.statusField ≠ 0) : beatStatus b s ≠ .ok ∧ t = raiseError (beatStatus b s) { s with pending := rest } := by
  obtain ⟨dg, hr'⟩ := step_response_status hp h
  obtain rfl : r = _ := by simpa using hr.symm.trans hr'
  rw [respWord_status, ne_eq, Status.code_eq_zero_iff] at he
  rw [step_of_beatStatus_ne_ok hp he] at h
  cases h
  exact ⟨he, rfl⟩

end

/-! ### The obligations -/

/-- Settles O19: on an UPDATE of an open message the length check decides alone, and no other check gives its status. -/
theorem lengthOverflowExactly : Obligations.LengthOverflowExactly := by
  refine ⟨fun i s hi hp hl => ?_, fun i s t r h hr h2 => ?_⟩
  · exact ⟨_, exec_update_of_gt hi hp hl, respWord_status _ _ _, respWord_phase _ _ _, respWord_zero _ _ _, rfl⟩
  · obtain ⟨dg, hr'⟩ := (completes_of_exec h).response_status
    obtain rfl : r = _ := by simpa using hr.symm.trans hr'
    rw [respWord_status, Status.code_eq_two_iff] at h2
    exact checkStatus_eq_lengthOverflow_iff.mp h2

theorem respWord_useAfterFinalize_finalized : respWord .useAfterFinalize .finalized = 0x00000021 := by decide

/-- Settles O21: neither command is INIT, and RESP holds status 1 with phase code 2. -/
theorem useAfterFinalizeRaised : Obligations.UseAfterFinalizeRaised := by
  intro i s hp hi
  rw [exec_of_finalized (Instr.ne_init hi) hp, ← respWord_useAfterFinalize_finalized, ← hp]
  rfl

/-- Settles O22: the error in the response makes the step a rejection, whichever check failed. -/
theorem rejectedBeatChangesNoState : Obligations.RejectedBeatChangesNoState := by
  intro s t b rest r hp h hr he
  obtain ⟨-, rfl⟩ := step_eq_raiseError hp h hr he
  obtain rfl : _ = r := by simpa using hr
  exact ⟨rfl, rfl, respWord_phase _ _ _⟩

/-- Settles O23: under R25 the step answers, with the status of the checks in their order. -/
theorem errorPriority : Obligations.ErrorPriority := by
  intro s b rest hinv hp
  obtain ⟨t, ht⟩ := step_next_of_inv hinv
  obtain ⟨dg, hr⟩ := step_response_status hp ht
  refine ⟨t, _, ht, hr, ?_⟩
  rw [respWord_status]
  cases hd : decode b with
  | error why => exact congrArg Status.code (beatStatus_of_error hd s)
  | ok i =>
    rw [beatStatus_of_ok hd, checkStatus, apply_ite Status.code, apply_ite Status.code]
    rfl

/-- Settles O25: the checks read the phase and L, which the first rejection left alone, so they fail alike. -/
theorem retryFailsIdentically : Obligations.RetryFailsIdentically := by
  intro s t b rest r hp h hr he
  obtain ⟨hb, rfl⟩ := step_eq_raiseError hp h hr he
  obtain rfl : _ = r := by simpa using hr
  have hsame : beatStatus b (raiseError (beatStatus b s) { s with pending := b :: rest }) = beatStatus b s := rfl
  refine ⟨_, step_of_beatStatus_ne_ok rfl (hsame ▸ hb), ?_, rfl, rfl, rfl, rfl⟩
  rw [hsame]
  simp

end Sys2Proof.Machine
end

/-! ## Proofs: a system at reset and under an event -/

section
namespace Sys2Proof.Machine

theorem System.wf_iff (y : System) : y.wf = true ↔ y.params.legal = true ∧ y.engines.length = y.params.nEngines := by
  simp [System.wf]

/-- At most the engine on the event's channel is written. -/
theorem System.applyEvent_frame {y z : System} {k : Nat} {e : Event} (h : y.applyEvent k e = .next z) :
    z.params = y.params ∧ z.engines.length = y.engines.length ∧ ∀ j, j ≠ k → z.engines[j]? = y.engines[j]? := by
  rcases System.applyEvent_eq_next_iff.mp h with ⟨-, rfl⟩ | ⟨s, t, -, -, rfl⟩
  · exact ⟨rfl, rfl, fun _ _ => rfl⟩
  · exact ⟨rfl, List.length_set, fun _ hj => List.getElem?_set_ne hj.symm⟩

/-- Settles O38: reset replicates the reset state, and well-formedness speaks of what an event's frame keeps. -/
theorem systemResetAndFrame : Obligations.SystemResetAndFrame := by
  refine ⟨fun p => ⟨fun hp => ?_, List.length_replicate, rfl, fun k hk => ?_⟩, fun y z k e h => ?_⟩
  · exact (System.wf_iff _).mpr ⟨hp, List.length_replicate⟩
  · simp [System.reset, hk]
  · obtain ⟨hparams, hlen, hothers⟩ := System.applyEvent_frame h
    refine ⟨fun hwf => ?_, hparams, hlen, hothers⟩
    rw [System.wf_iff, hparams, hlen]
    exact (System.wf_iff y).mp hwf

end Sys2Proof.Machine
end

/-! ## Proofs: reset, INIT, and the beats and responses that stand in the channels (70_reset_and_hazards.md) -/

section
namespace Sys2Proof.Machine

/-! ### The channels around a step -/

/-- The same engine with `older` responses before its own and `later` beats behind its own. -/
def State.amid (older : List Response) (later : List Beat) (s : State) : State :=
  { s with pending := s.pending ++ later, responses := older ++ s.responses }

/-- The outcome with its next state, if it has one, changed by `f`. -/
def onNext (f : State → State) : Host.Outcome State Fault Refusal → Host.Outcome State Fault Refusal
  | .next s => .next (f s)
  | .fault r => .fault r
  | .refused r => .refused r

@[simp] theorem onNext_next (f : State → State) (s : State) : onNext f (.next s) = .next (f s) := rfl

theorem onNext_eq_next_iff {f : State → State} {o : Host.Outcome State Fault Refusal} {t : State} :
    onNext f o = .next t ↔ ∃ u, o = .next u ∧ f u = t := by
  cases o <;> simp [onNext]

section
variable (older : List Response) (later : List Beat)

@[simp] theorem State.amid_hash (s : State) : (s.amid older later).hash = s.hash := rfl
@[simp] theorem State.amid_phase (s : State) : (s.amid older later).phase = s.phase := rfl
@[simp] theorem State.amid_buf (s : State) : (s.amid older later).buf = s.buf := rfl
@[simp] theorem State.amid_len (s : State) : (s.amid older later).len = s.len := rfl
@[simp] theorem State.amid_pending (s : State) : (s.amid older later).pending = s.pending ++ later := rfl
@[simp] theorem State.amid_responses (s : State) : (s.amid older later).responses = older ++ s.responses := rfl

theorem respond_amid (st : Status) (dg : Option HashState) (s : State) :
    respond st dg (s.amid older later) = (respond st dg s).amid older later := by
  simp [respond, State.amid]

theorem raiseError_amid (st : Status) (s : State) :
    raiseError st (s.amid older later) = (raiseError st s).amid older later :=
  respond_amid older later st none s

theorem startMessage_amid (s : State) : startMessage (s.amid older later) = (startMessage s).amid older later := rfl

theorem closeMessage_amid (h : HashState) (s : State) :
    closeMessage h (s.amid older later) = (closeMessage h s).amid older later := rfl

theorem takeByte_amid (s : State) (b : Byte) :
    takeByte (s.amid older later) b = (takeByte s b).amid older later := by
  by_cases hf : s.buf.length + 1 = 64
  · rw [takeByte_of_eq hf, takeByte_of_eq (s := s.amid older later) hf]
    rfl
  · rw [takeByte_of_ne hf, takeByte_of_ne (s := s.amid older later) hf]
    rfl

theorem takeBytes_amid (bs : List Byte) (s : State) :
    takeBytes bs (s.amid older later) = (takeBytes bs s).amid older later := by
  induction bs generalizing s with
  | nil => rfl
  | cons b bs ih => rw [takeBytes_cons, takeByte_amid, ih, takeBytes_cons]

theorem appendBytes_amid (bs : List Byte) (s : State) :
    appendBytes bs (s.amid older later) = onNext (State.amid older later) (appendBytes bs s) := by
  rw [appendBytes, appendBytes, apply_ite (onNext _), apply_ite (onNext _), onNext_next, onNext_next, onNext_next,
    raiseError_amid, raiseError_amid, takeBytes_amid, respond_amid, State.amid_phase, State.amid_len]

theorem finishMessage_amid (s : State) :
    finishMessage (s.amid older later) = onNext (State.amid older later) (finishMessage s) := by
  rw [finishMessage, finishMessage, State.amid_phase, State.amid_hash, State.amid_buf, State.amid_len]
  by_cases hp : s.phase = .finalized
  · rw [if_pos hp, if_pos hp, onNext_next, raiseError_amid]
  · rw [if_neg hp, if_neg hp]
    cases segmentBlocks (tail s.buf s.len) with
    | none => rfl
    | some blks => simp only [onNext_next, closeMessage_amid, respond_amid]

/-- A command reads neither channel, and all it does to them is add its response. -/
theorem exec_amid (i : Instr) (s : State) :
    exec i (s.amid older later) = onNext (State.amid older later) (exec i s) := by
  rcases instr_cases i with rfl | hi | rfl
  · rw [exec_init, exec_init, onNext_next, startMessage_amid, respond_amid]
  · rw [exec_update hi, exec_update hi, appendBytes_amid]
  · exact finishMessage_amid older later s

/-- A step that has a beat of its own to take, or no beat behind, reads nothing around it in the channels. -/
theorem step_amid {s : State} (h : s.pending ≠ [] ∨ later = []) :
    step (s.amid older later) = onNext (State.amid older later) (step s) := by
  cases hp : s.pending with
  | nil =>
    obtain rfl : later = [] := h.resolve_left fun hne => hne hp
    have hp' : (s.amid older []).pending = [] := by simp [hp]
    rw [step_of_nil hp, step_of_nil hp', onNext_next]
  | cons b rest =>
    have hp' : (s.amid older later).pending = b :: (rest ++ later) := by simp [hp]
    cases hd : decode b with
    | ok i =>
      rw [step_of_ok hp hd, step_of_ok hp' hd, ← exec_amid]
      rfl
    | error why =>
      rw [step_of_error hp hd, step_of_error hp' hd, onNext_next, ← raiseError_amid]
      rfl

end

/-- Settles O36: the new beat is one behind, and the step takes the one that waits. -/
theorem earlyBeatIsHeld : Obligations.EarlyBeatIsHeld := by
  intro s t b hp h
  have hs := step_amid [] [b] (.inl hp)
  rw [h] at hs
  exact hs

/-! ### The channels around a run -/

theorem step_pending_eq_tail {s t : State} (h : step s = .next t) : t.pending = s.pending.tail := by
  cases hp : s.pending with
  | nil =>
    rw [step_of_nil hp] at h
    cases h
    simpa using hp
  | cons b rest =>
    obtain ⟨-, hpend, -⟩ := step_answer hp h
    exact hpend

theorem runSteps_amid (older : List Response) (later : List Beat) {n : Nat} {s : State}
    (h : n ≤ s.pending.length ∨ later = []) :
    runSteps n (s.amid older later) = onNext (State.amid older later) (runSteps n s) := by
  induction n generalizing s with
  | zero => rfl
  | succ n ih =>
    have hs := step_amid older later (s := s) (h.imp_left fun hn => List.ne_nil_of_length_pos (by omega))
    rw [runSteps, runSteps, hs]
    cases hu : step s with
    | next u =>
      have hlen : u.pending.length = s.pending.length - 1 := by rw [step_pending_eq_tail hu, List.length_tail]
      exact ih (h.imp_left fun hn => by omega)
    | fault r => rfl
    | refused r => rfl

/-- From R25 the engine answers n of its waiting beats one after another, each with one response behind those before it. -/
theorem runSteps_answers {n : Nat} {s : State} (hi : s.Inv) (hn : n ≤ s.pending.length) :
    ∃ (t : State) (rs : List Response), runSteps n s = .next t ∧ t.Inv ∧ t.pending = s.pending.drop n ∧
      t.responses = s.responses ++ rs ∧ rs.length = n ∧
      ∀ k ≤ n, ∃ u : State, runSteps k s = .next u ∧ u.responses = s.responses ++ rs.take k := by
  induction n generalizing s with
  | zero =>
    refine ⟨s, [], rfl, hi, rfl, by simp, rfl, fun k hk => ⟨s, ?_, by simp⟩⟩
    rw [Nat.le_zero.mp hk]
    rfl
  | succ n ih =>
    obtain ⟨b, rest, hp⟩ := List.exists_cons_of_length_pos (l := s.pending) (by omega)
    obtain ⟨v, hv⟩ := step_next_of_inv hi
    obtain ⟨st, hpend, hr⟩ := step_answer hp hv
    rw [hp, List.length_cons] at hn
    obtain ⟨t, rs, hrun, hti, htp, htr, hlen, hpre⟩ := ih (step_keeps_inv hi hv) (by rw [hpend]; omega)
    refine ⟨t, _ :: rs, (runSteps_succ_of_next hv).trans hrun, hti, by rw [htp, hpend, hp]; rfl,
      by rw [htr, hr, List.append_assoc]; rfl, by rw [List.length_cons, hlen], fun k hk => ?_⟩
    cases k with
    | zero => exact ⟨s, rfl, by simp⟩
    | succ k =>
      obtain ⟨u, hu, hur⟩ := hpre k (by omega)
      exact ⟨u, (runSteps_succ_of_next hv).trans hu, by rw [hur, hr, List.append_assoc]; rfl⟩

/-- Settles O35: the beats beyond the first k stand behind them in the channel, so they change nothing of those k steps. -/
theorem everyBeatIsAnswered : Obligations.EveryBeatIsAnswered := by
  intro bs s hi hp
  have hrunBeats (cs : List Beat) : runBeats cs s = runSteps cs.length (s.sendAll cs) := by simp [runBeats, hp]
  obtain ⟨t, rs, hrun, hti, htp, htr, hlen, hpre⟩ := runSteps_answers (n := bs.length) (s := s.sendAll bs) hi (by simp)
  refine ⟨t, rs, (hrunBeats bs).trans hrun, hti, by simp [htp, hp], htr, hlen, fun k hk => ?_⟩
  obtain ⟨u, hu, hur⟩ := hpre k hk
  have hsplit : s.sendAll bs = (s.sendAll (bs.take k)).amid [] (bs.drop k) := by
    simp [State.amid, State.sendAll, hp]
  rw [hsplit, runSteps_amid _ _ (.inl (by simp [hp, hk])), onNext_eq_next_iff] at hu
  obtain ⟨v, hv, rfl⟩ := hu
  exact ⟨v, by rw [hrunBeats, List.length_take_of_le hk, hv], hur⟩

/-! ### Reset and INIT -/

/-- Settles O15: INIT writes the message state of reset and answers. -/
theorem resetState : Obligations.ResetState := by
  refine ⟨fun _ => rfl, rfl, fun s t h => ?_⟩
  rw [exec_init] at h
  cases h
  exact ⟨rfl, rfl, rfl, rfl⟩

/-- After a step that takes INIT the engine is one that left reset and answered OK, with the same beats waiting (R263). -/
theorem step_of_init {s : State} {b : Beat} {rest : List Beat} (hp : s.pending = b :: rest)
    (hd : decode b = .ok .init) :
    step s = .next (((respond .ok none State.reset).sendAll rest).amid s.responses []) := by
  rw [step_of_ok hp hd, exec_init]
  simp [State.amid, State.sendAll, respond, startMessage, State.reset]

/-- Settles O34: both runs go on from the same engine, and differ in the responses from before the INIT alone. -/
theorem initForgetsThePast : Obligations.InitForgetsThePast := by
  intro s₁ s₂ t₁ b rest n hp₁ hp₂ hd h
  have hrun {s : State} (hp : s.pending = b :: rest) := (runSteps_succ_of_next (n := n) (step_of_init hp hd)).trans
    (runSteps_amid s.responses [] (.inr rfl))
  obtain ⟨t, ht, rfl⟩ := onNext_eq_next_iff.mp ((hrun hp₁).symm.trans h)
  exact ⟨t.amid s₂.responses [], t.responses, by rw [hrun hp₂, ht, onNext_next], ⟨rfl, rfl, rfl, rfl⟩, rfl, rfl, rfl⟩

end Sys2Proof.Machine
end
